-- ==== Sys2Proof/Word.lean ====
section
/-! DEFINITION. The widths of the words the spec names: the command word, the data word, the duration operand and the
register-window address. -/

namespace Sys2Proof

/-- The 40-bit command word `W` (30_encoding.md R50). -/
abbrev CommandWord := BitVec 40

/-- The 32-bit word of the register window, of `HDR` and of `PAY` (20_memory.md R40, 10_state.md R20). -/
abbrev Word := BitVec 32

/-- The `DUR` field of a command word, a pulse duration in microseconds, unsigned: 32 bits, whatever `DUR_W` (30_encoding.md R52). -/
abbrev Duration := BitVec 32

/-- A register-window address (20_memory.md R40). -/
abbrev SlotAddr := BitVec 4

end Sys2Proof
end

