-- ==== Sys2Proof/Syntax.lean ====
section
/-! DEFINITION. The commands: one constructor per row of spec/opcode_table.json. -/

namespace Sys2Proof

/-- A decoded command word (30_encoding.md R56). -/
inductive Instr where
  /-- `feed <lvl>, <dur>`: raw level and duration of one pulse (46_operations.md R140). -/
  | feed (lvl : Bool) (dur : Duration)
  /-- `reset` (46_operations.md R141). -/
  | reset
  /-- `read <reg>`: one register-window slot (46_operations.md R142). -/
  | read (addr : SlotAddr)
  /-- Every other word (46_operations.md R143). It has no operands. DESIGN CHOICE (log entry 6): the word is kept beside the
  constructor, so that encoding loses nothing; no meaning reads it. -/
  | illegal (word : CommandWord)
  deriving DecidableEq, Repr

end Sys2Proof
end

