-- ==== Sys2Proof/WellFormed.lean ====
section
/-! DEFINITION. Well-formed commands. The types of `feed`, `reset` and `read` admit no ill-formed operand; an `illegal` word must
match none of the three rows of spec/opcode_table.json. -/

namespace Sys2Proof

/-- A row of spec/opcode_table.json: the words `w` with `w & mask = match` (30_encoding.md R51). -/
structure OpcodeRow where
  mask : CommandWord
  pattern : CommandWord
  deriving DecidableEq, Repr

def OpcodeRow.matches (r : OpcodeRow) (w : CommandWord) : Bool := w &&& r.mask == r.pattern

def feedRow : OpcodeRow := { mask := 0xFE00000000, pattern := 0x4000000000 }
def resetRow : OpcodeRow := { mask := 0xFFFFFFFFFF, pattern := 0x8000000000 }
def readRow : OpcodeRow := { mask := 0xFFFFFFFFF0, pattern := 0xC000000000 }

/-- The rows of the three commands; the table's fourth row is the catch-all. -/
def commandRows : List OpcodeRow := [feedRow, resetRow, readRow]

/-- An `illegal` word matches no command's row (46_operations.md R143). -/
def Instr.wellFormed : Instr → Bool
  | .feed _ _ => true
  | .reset => true
  | .read _ => true
  | .illegal w => commandRows.all fun r => !r.matches w

end Sys2Proof
end

