-- ==== Sys2Proof/Decode.lean ====
section
/-! DEFINITION. The decoder of 30_encoding.md R56, total on all 40-bit words, the reading of a row of spec/opcode_table.json, and
the encoder of R51 to R54. -/

namespace Sys2Proof

/-- `OP = W[39:38]` (30_encoding.md R51). -/
def opField (w : CommandWord) : BitVec 2 := w.extractLsb' 38 2
/-- `RSV = W[37:33]` (R51). -/
def rsvField (w : CommandWord) : BitVec 5 := w.extractLsb' 33 5
/-- `LVL = W[32]` (R52). -/
def lvlField (w : CommandWord) : Bool := w.getLsbD 32
/-- `DUR = W[31:0]` (R52). -/
def durField (w : CommandWord) : Duration := w.extractLsb' 0 32
/-- `ADDR = W[3:0]` (R54). -/
def addrField (w : CommandWord) : SlotAddr := w.extractLsb' 0 4

/-- `decode(W)` of 30_encoding.md R56. A word that is no command decodes to `illegal`, by name. -/
def decode (w : CommandWord) : Instr :=
  if opField w = 0b01 ∧ rsvField w = 0 then .feed (lvlField w) (durField w)
  else if opField w = 0b10 ∧ w.extractLsb' 0 38 = 0 then .reset
  else if opField w = 0b11 ∧ w.extractLsb' 4 34 = 0 then .read (addrField w)
  else .illegal w

/-- Why a string of bits is no command word at all. -/
inductive DecodeReject where
  /-- More bits than a command has (30_encoding.md R58). -/
  | longerThanACommand
  /-- A value that needs more bits than were given. -/
  | bitsAboveLength
  deriving DecidableEq, Repr

/-- A command given as `nbits` bits of value `w`, the bits above `nbits` being 0. DESIGN CHOICE (log entry 7): more than 40 bits, or
a value that does not fit `nbits`, is rejected by name. -/
def decodeBits (nbits w : Nat) : Except DecodeReject Instr :=
  if 40 < nbits then .error .longerThanACommand
  else if 2 ^ nbits ≤ w then .error .bitsAboveLength
  else .ok (decode (BitVec.ofNat 40 w))

/-- The instruction the decoder reads from a word numbered as spec/opcode_table.json numbers it. -/
def decodeTableWord (nbits w : Nat) : Option Instr :=
  match decodeBits nbits w with
  | .ok i => some i
  | .error _ => none

/-- The word of a command (30_encoding.md R51 to R54). -/
def encode : Instr → CommandWord
  | .feed lvl dur => (0b01#2 ++ 0#5 ++ BitVec.ofBool lvl ++ dur : BitVec 40)
  | .reset => (0b10#2 ++ 0#38 : BitVec 40)
  | .read addr => (0b11#2 ++ 0#34 ++ addr : BitVec 40)
  | .illegal w => w

end Sys2Proof
end

