-- ==== Sys2Proof/Config.lean ====
section
/-! DEFINITION. The implementation parameters of 00_scope.md R6: their type, and the constraints R6 and 10_state.md R27 put on
a configuration. The values this spec's hardware takes are `Machine.params` (Machine/Params.lean). -/

namespace Sys2Proof

/-- The decode kinds of the sensor table; `none` is what a failed lookup gives (10_state.md R27, 43_frame_parser.md R108). -/
inductive DecodeKind where
  | none
  | tempOnly
  deriving DecidableEq, Repr

/-- One row of `SENSOR_TABLE`: code, payload width in bits, decode kind (10_state.md R27). -/
structure SensorRow where
  code  : BitVec 16
  width : Nat
  kind  : DecodeKind
  deriving DecidableEq, Repr

/-- The parameters of 00_scope.md R6. Constant while the block runs (R7). -/
structure Params where
  /-- `LONG_US` -/
  longUs : Nat
  /-- `SHORT_US` -/
  shortUs : Nat
  /-- `TOL_US` -/
  tolUs : Nat
  /-- `DUR_W` -/
  durW : Nat
  /-- `LEVEL_INVERT` -/
  levelInvert : Bool
  /-- `ACC_W` -/
  accW : Nat
  /-- `CNT_W` -/
  cntW : Nat
  /-- `PREAMBLE_LEN` -/
  preambleLen : Nat
  /-- `PREAMBLE_PAT` -/
  preamblePat : BitVec 20
  /-- `PREAMBLE_MASK` -/
  preambleMask : BitVec 20
  /-- `HDR_BITS` -/
  hdrBits : Nat
  /-- `CHK_BITS` -/
  chkBits : Nat
  /-- `SENSOR_TABLE` -/
  sensorTable : List SensorRow
  /-- `PAYLOAD_DONE_CLEARS` -/
  payloadDoneClears : Bool
  deriving DecidableEq, Repr

/-- The row the document gives (10_state.md R27). -/
def SensorRow.document : SensorRow := { code := 0xEC40, width := 16, kind := .tempOnly }

/-- What 00_scope.md R6 and 10_state.md R27 allow of a configuration: the parameters marked *source* at the document's values,
those marked *decision* within their constraints, and the document's sensor table, possibly with rows added. -/
structure Params.Admissible (p : Params) : Prop where
  longUs : p.longUs = 1000
  shortUs : p.shortUs = 500
  tolUs : p.tolUs = 200
  durW : p.durW = 32
  accW : 40 ≤ p.accW
  cntW : 6 ≤ p.cntW
  preambleLen : p.preambleLen = 19
  preamblePat : p.preamblePat = 0x7FFF5
  preambleMask : p.preambleMask = 0x7FFFF ∨ p.preambleMask = 0xFFFFF
  hdrBits : p.hdrBits = 32
  chkBits : p.chkBits = 8
  documentRow : SensorRow.document ∈ p.sensorTable
  rows : ∀ r ∈ p.sensorTable, 1 ≤ r.width ∧ r.width ≤ 24 ∧ r.kind = .tempOnly
  distinctCodes : (p.sensorTable.map (·.code)).Nodup

end Sys2Proof
end

