-- ==== Sys2Proof/Machine/Params.lean ====
section
/-! DEFINITION. The parameter values this spec's hardware takes: the "value" column of 00_scope.md R6. -/

namespace Sys2Proof.Machine

/-- The hardware's configuration (00_scope.md R6). DESIGN CHOICE (log entry 9): the rows R6 marks *decision* stand at the spec's
default values. -/
abbrev params : Params where
  longUs := 1000
  shortUs := 500
  tolUs := 200
  durW := 32
  levelInvert := true
  accW := 64
  cntW := 16
  preambleLen := 19
  preamblePat := 0x7FFF5
  preambleMask := 0x7FFFF
  hdrBits := 32
  chkBits := 8
  sensorTable := [{ code := 0xEC40, width := 16, kind := .tempOnly }]
  payloadDoneClears := false

end Sys2Proof.Machine
end

