-- ==== Sys2Proof/Machine/State.lean ====
section
/-! DEFINITION. The state, at any parameters and at the hardware's: the ten elements of 10_state.md R20 (`Block`), the
response of 30_encoding.md R57, and the host port.
Power-on reset values (10_state.md R31). -/

namespace Sys2Proof.Machine

/-- FrameParserState (10_state.md R20). R23 lets a model leave the value 3 out (log entry 8). -/
inductive PState where
  | search
  | header
  | payload
  deriving DecidableEq, Repr

/-- The block's whole state, at the parameters `p`: exactly the ten elements of 10_state.md R20. -/
structure Block (p : Params) where
  /-- the assembler holds the first half of a pair -/
  hold : Bool
  /-- half-value of the held, or last held, first half -/
  first : Bool
  /-- bit accumulator, newest bit at bit 0 -/
  acc : BitVec p.accW
  /-- bits pushed since the accumulator was last cleared -/
  cnt : BitVec p.cntW
  pstate : PState
  /-- `HDR`, the last captured header word after the nibble-pair-swap -/
  hdr : Word
  /-- `PAY`, the last captured payload word after the nibble-pair-swap -/
  pay : Word
  /-- `VARW`, the payload width looked up for the last captured header -/
  varw : BitVec 8
  /-- `HDR_VALID` -/
  hdrValid : Bool
  /-- `PAY_VALID` -/
  payValid : Bool
  deriving DecidableEq, Repr

/-- Every element at its power-on value (10_state.md R31). -/
def Block.powerOn (p : Params) : Block p where
  hold := false
  first := false
  acc := 0
  cnt := 0
  pstate := .search
  hdr := 0
  pay := 0
  varw := 0
  hdrValid := false
  payValid := false

/-- The `status` of a response (30_encoding.md R57). -/
inductive Status where
  | ok
  | illegal
  deriving DecidableEq, Repr

/-- The `event` of a response (30_encoding.md R57). -/
inductive Event where
  | none
  | headerOnly
  | full
  deriving DecidableEq, Repr

/-- The response of one command (30_encoding.md R57). -/
structure Response where
  status : Status
  event : Event
  data : Word
  deriving DecidableEq, Repr

/-- What the host does to the block between two steps. -/
inductive HostInput where
  /-- It issues one command word (30_encoding.md R50). -/
  | command (word : CommandWord)
  /-- It asserts power-on reset (70_reset_and_hazards.md R170), perhaps while it presents a command word, which is then not
  performed (60_exceptions.md R157). -/
  | powerOn (presented : Option CommandWord)
  deriving DecidableEq, Repr

/-- The machine at the parameters `p` (00_scope.md R6): the block, and the host port. The port's two fields are the MODEL's own (log
entries 1, 2 and 5). -/
structure StateAt (p : Params) where
  block : Block p
  /-- inputs the host has issued and the block has not yet taken, in issue order -/
  inbox : List HostInput
  /-- what the last step answered, if it performed a command -/
  response : Option Response
  deriving DecidableEq, Repr

/-- The machine at this spec's parameter values. -/
structure State extends StateAt params where
  deriving DecidableEq, Repr

/-- The reasons for a stop with a fault. None: every command completes (60_exceptions.md R155). -/
inductive Fault where
  deriving DecidableEq, Repr

/-- The reasons for a refusal. -/
inductive Refusal where
  /-- Raised by an arm of `exec` whose instruction has no meaning yet; no arm does. Safe. -/
  | notModelled (mnemonic : String)
  deriving DecidableEq, Repr

/-- Right after power-on reset (10_state.md R31): no input taken or waiting, no response given (R170). -/
def StateAt.reset (p : Params) : StateAt p where
  block := Block.powerOn p
  inbox := []
  response := none

/-- `StateAt.reset` at this spec's parameter values. -/
def State.reset : State where
  toStateAt := StateAt.reset params

end Sys2Proof.Machine
end

