-- ==== Sys2Proof/Machine/Operands.lean ====
section
/-! DEFINITION. Operand forms: the level a pulse is classified by, and the fields of the captured words `HDR` and `PAY` that later
stages read. -/

namespace Sys2Proof.Machine

/-- The protocol level `pl = lvl ^ LEVEL_INVERT` of a raw level (40_pulse_classifier.md R70). -/
def protocolLevel (p : Params) (lvl : Bool) : Bool := lvl ^^ p.levelInvert

/-- The duration operand, `DUR_W` bits wide (00_scope.md R6), of a word's `DUR` field (40_pulse_classifier.md R71). -/
def durOperand (p : Params) (dur : Duration) : BitVec p.durW := dur.setWidth p.durW

/-- `sensor_id = HDR[31:16]`, which is also the lookup key `sensor_type_code` (44_field_decoder.md R120, 43_frame_parser.md R109). -/
def sensorId (hdr : Word) : BitVec 16 := hdr.extractLsb' 16 16

/-- The channel nibble `HDR[15:12]` (44_field_decoder.md R121). -/
def channelNibble (hdr : Word) : BitVec 4 := hdr.extractLsb' 12 4

/-- `rolling = HDR[11:4]` (44_field_decoder.md R123). -/
def rollingCode (hdr : Word) : BitVec 8 := hdr.extractLsb' 4 8

/-- The transmitted checksum byte `PAY[7:0]` (45_checksum.md R130, step 2). -/
def checksumByte (pay : Word) : BitVec 8 := pay.extractLsb' 0 8

/-- Nibble `k` of a word as an integer: `(v >> 4k) & 0xF`. -/
def nibble (v : Word) (k : Nat) : Nat := ((v >>> (4 * k)) &&& 0xF).toNat

/-- The code of a parser state in STATUS (10_state.md R20). -/
def PState.code : PState → BitVec 2
  | .search => 0
  | .header => 1
  | .payload => 2

/-- The code of a status (30_encoding.md R57). -/
def Status.code : Status → BitVec 1
  | .ok => 0
  | .illegal => 1

/-- The code of an event (30_encoding.md R57); 3 is never produced. -/
def Event.code : Event → BitVec 2
  | .none => 0
  | .headerOnly => 1
  | .full => 2

end Sys2Proof.Machine
end

