-- ==== Sys2Proof/Machine/Ops.lean ====
section
/-! DEFINITION. The shared operations on the block's registers: clearing and pushing the accumulator, the full reset that recovers
every timing error (this block has no exception to take and none to return from, 60_exceptions.md R155), the nibble-pair-swap, the
sensor-table lookup, and the response. -/

namespace Sys2Proof.Machine

variable {p : Params}

/-- The clear of the accumulator (42_bit_accumulator.md R91). -/
def Block.clearAcc (b : Block p) : Block p := { b with acc := 0, cnt := 0 }

/-- `push_bit(b)` (42_bit_accumulator.md R90): `acc` keeps its low `ACC_W` bits and `cnt` wraps modulo `2^CNT_W` (R93). -/
def Block.pushBit (bit : Bool) (b : Block p) : Block p :=
  { b with acc := b.acc <<< 1 ||| (BitVec.ofBool bit).setWidth p.accW, cnt := b.cnt + 1 }

/-- `full_reset()` (41_manchester_assembler.md R85). -/
def Block.fullReset (b : Block p) : Block p :=
  { b with hold := false, first := false, acc := 0, cnt := 0, pstate := .search }

/-- `swap32(v)` (43_frame_parser.md R106): each bit pair, then the pairs in each nibble. -/
def swap32 (v : Word) : Word :=
  let v := ((v &&& 0x55555555) <<< 1) ||| ((v &&& 0xAAAAAAAA) >>> 1)
  ((v &&& 0x33333333) <<< 2) ||| ((v &&& 0xCCCCCCCC) >>> 2)

/-- `lookup(code)` (43_frame_parser.md R108): the row's payload width and decode kind, or `(0, NONE)`. -/
def lookup (p : Params) (code : BitVec 16) : Nat × DecodeKind :=
  match p.sensorTable.find? fun r => r.code == code with
  | some r => (r.width, r.kind)
  | none => (0, .none)

/-- The low 32 bits `acc[31:0]`, which every capture takes (42_bit_accumulator.md R94). -/
def Block.accLow (b : Block p) : Word := b.acc.setWidth 32

/-- `respond(status, event, data)` (00_scope.md R10). -/
def respond (status : Status) (event : Event) (data : Word) : Response := { status, event, data }

/-- The 35-bit packing of a response (30_encoding.md R57). -/
def Response.pack (r : Response) : BitVec 35 := (r.status.code ++ r.event.code ++ r.data : BitVec 35)

/-- The machine after its block performed one command with that response. -/
def StateAt.answer (s : StateAt p) (r : Block p × Response) : StateAt p :=
  { s with block := r.1, response := some r.2 }

/-- `StateAt.answer` at the hardware's parameters. -/
def State.answer (s : State) (r : Block params × Response) : State where
  toStateAt := s.toStateAt.answer r

end Sys2Proof.Machine
end

