-- ==== Sys2Proof/Machine/Classifier.lean ====
section
/-! DEFINITION. The pulse classifier (40_pulse_classifier.md). -/

namespace Sys2Proof.Machine

/-- The class of a valid pulse (40_pulse_classifier.md R71). -/
inductive PulseClass where
  | long
  | short
  deriving DecidableEq, Repr

/-- The half-bit symbol of a pulse (R71, R74); the half-value is true for High. -/
inductive Symbol where
  | valid (cls : PulseClass) (half : Bool)
  | invalid
  deriving DecidableEq, Repr

/-- The names of R74. -/
abbrev Symbol.longHigh : Symbol := .valid .long true
abbrev Symbol.longLow : Symbol := .valid .long false
abbrev Symbol.shortHigh : Symbol := .valid .short true
abbrev Symbol.shortLow : Symbol := .valid .short false

/-- `|d - centre| < tol` on integers, strictly (R71; 90_conflicts.md C1). -/
def inWindow {n : Nat} (d : BitVec n) (centre tol : Nat) : Bool :=
  decide (((d.toNat : Int) - (centre : Int)).natAbs < tol)

/-- `classify(pl, d)` (R71). -/
def classify (p : Params) (pl : Bool) (d : BitVec p.durW) : Symbol :=
  if inWindow d p.longUs p.tolUs then .valid .long pl
  else if inWindow d p.shortUs p.tolUs then .valid .short pl
  else .invalid

end Sys2Proof.Machine
end

