-- ==== Sys2Proof/Machine/Assembler.lean ====
section
/-! DEFINITION. The Manchester half-bit assembler (41_manchester_assembler.md). -/

namespace Sys2Proof.Machine

variable {p : Params}

/-- `advance(sym)` (41_manchester_assembler.md R86): R80 to R83 in that order. The class of a valid symbol is not read (R84). -/
def advance (sym : Symbol) (b : Block p) : Block p × Option Bool :=
  match sym with
  | .invalid => (b.fullReset, none)
  | .valid _ h =>
    if b.hold = false then ({ b with first := h, hold := true }, none)
    else if b.first ≠ h then ({ b with hold := false }, some h)
    else (b.fullReset, none)

end Sys2Proof.Machine
end

