-- ==== Sys2Proof/Machine/Parser.lean ====
section
/-! DEFINITION. The frame parser (43_frame_parser.md). -/

namespace Sys2Proof.Machine

variable {p : Params}

/-- The preamble condition of 43_frame_parser.md R101. -/
def preambleMatches (b : Block p) : Bool :=
  decide (p.preambleLen ≤ b.cnt.toNat) &&
    (b.acc &&& p.preambleMask.setWidth p.accW == p.preamblePat.setWidth p.accW)

/-- SEARCH (R101, R102). -/
def searchStep (b : Block p) : Block p × Event :=
  if preambleMatches b then ({ b.clearAcc with pstate := .header }, .none) else (b, .none)

/-- HEADER (R103, R104). `PAY` is not written. -/
def headerStep (b : Block p) : Block p × Event :=
  if b.cnt.toNat = p.hdrBits then
    let h := swap32 b.accLow
    let w := (lookup p (sensorId h)).1
    let c := { b.clearAcc with
      hdr := h, hdrValid := true, payValid := false, varw := BitVec.ofNat 8 w }
    if 0 < w then ({ c with pstate := .payload }, .none)
    else ({ c with pstate := .search }, .headerOnly)
  else (b, .none)

/-- PAYLOAD (R105). The count is compared on integers. -/
def payloadStep (b : Block p) : Block p × Event :=
  if b.cnt.toNat = b.varw.toNat + p.chkBits then
    let c := { b with pay := swap32 b.accLow, payValid := true, pstate := .search }
    (if p.payloadDoneClears then c.clearAcc else c, .full)
  else (b, .none)

/-- `frame_step()` (R100): the arm of the current state, once. -/
def frameStep (b : Block p) : Block p × Event :=
  match b.pstate with
  | .search => searchStep b
  | .header => headerStep b
  | .payload => payloadStep b

end Sys2Proof.Machine
end

