-- ==== Sys2Proof/Machine/Checksum.lean ====
section
/-! DEFINITION. The checksum verifier (45_checksum.md). -/

namespace Sys2Proof.Machine

/-- Step 3 of `checksum(h, v)` (45_checksum.md R130): `rounds` times, shift both words by a nibble, then add their low nibbles. -/
def checksumLoop : Nat → Word → Word → Nat → Nat
  | 0, _, _, sum => sum
  | rounds + 1, h, v, sum =>
    let h := h >>> 4
    let v := v >>> 4
    checksumLoop rounds h v (sum + nibble h 0 + nibble v 0)

/-- Step 4 (R130): the nibbles of the 8-bit sum swapped. -/
def swapSumNibbles (sum : Nat) : BitVec 8 := BitVec.ofNat 8 (((sum >>> 4) &&& 0xF) ||| (sum <<< 4))

/-- `checksum(h, v)` (R130), as `(sum, ref)`. -/
def checksum (h v : Word) : BitVec 8 × BitVec 8 :=
  (swapSumNibbles (checksumLoop 7 h (v >>> 8) (nibble h 0)), checksumByte v)

end Sys2Proof.Machine
end

