-- ==== Sys2Proof/Machine/Fields.lean ====
section
/-! DEFINITION. The header and payload field decoder (44_field_decoder.md). -/

namespace Sys2Proof.Machine

/-- The loop of `channel_of` (44_field_decoder.md R121), with at most `fuel` halvings; a nibble needs three. -/
def channelLoop : Nat → Nat → Nat → Nat
  | 0, _, c => c
  | fuel + 1, n, c => if 1 < n then channelLoop fuel (n >>> 1) (c + 1) else c

/-- `channel_of(n)` (R121), 1 to 4. -/
def channelOf (n : BitVec 4) : Nat := channelLoop 4 n.toNat 1

/-- `temp_tenths(pay)` (R124): three digit nibbles, not checked to be decimal (R125), and a sign nibble. -/
def tempTenths (pay : Word) : Int :=
  let v := pay >>> 8
  let mag := nibble v 1 * 10 + nibble v 2
  let mag := mag * 10
  let mag := mag + nibble v 3
  if nibble v 0 ≠ 0 then -(mag : Int) else (mag : Int)

end Sys2Proof.Machine
end

