-- ==== Sys2Proof/Machine/Flags.lean ====
section
/-! DEFINITION. The derived flags of 10_state.md R26. -/

namespace Sys2Proof.Machine

variable {p : Params}

/-- `battery_low = HDR[2]` (44_field_decoder.md R122). -/
def batteryLow (hdr : Word) : Bool := hdr.getLsbD 2

/-- `TEMP_VALID` (44_field_decoder.md R126). -/
def tempValid (b : Block p) : Bool := b.payValid && (lookup p (sensorId b.hdr)).2 == .tempOnly

/-- `CHK_OK` (45_checksum.md R132): advisory, read by no rule. -/
def chkOk (b : Block p) : Bool := b.payValid && (checksum b.hdr b.pay).1 == (checksum b.hdr b.pay).2

end Sys2Proof.Machine
end

