-- ==== Sys2Proof/Machine/Window.lean ====
section
/-! DEFINITION. The read-only register window (20_memory.md R40 to R43). -/

namespace Sys2Proof.Machine

variable {p : Params}

/-- STATUS, slot 0x0. -/
def statusSlot (b : Block p) : Word :=
  (0#26 ++ BitVec.ofBool b.payValid ++ BitVec.ofBool b.hdrValid ++ BitVec.ofBool b.first ++ BitVec.ofBool b.hold ++ b.pstate.code :
    BitVec 32)

/-- FIELDS, slot 0x7. -/
def fieldsSlot (b : Block p) : Word :=
  (0#4 ++ rollingCode b.hdr ++ BitVec.ofBool (batteryLow b.hdr) ++ BitVec.ofNat 3 (channelOf (channelNibble b.hdr)) ++
    sensorId b.hdr : BitVec 32)

/-- TEMP, slot 0x8: `twos_16` of the tenths, and TEMP_VALID. -/
def tempSlot (b : Block p) : Word :=
  (0#15 ++ BitVec.ofBool (tempValid b) ++ BitVec.ofInt 16 (tempTenths b.pay) : BitVec 32)

/-- CHECKSUM, slot 0x9: SUM, REF and CHK_OK. -/
def checksumSlot (b : Block p) : Word :=
  (0#15 ++ BitVec.ofBool (chkOk b) ++ (checksum b.hdr b.pay).2 ++ (checksum b.hdr b.pay).1 : BitVec 32)

/-- `RegRead(addr)` (20_memory.md R41, R42); 0xA to 0xF read 0 (R43). -/
def regRead (b : Block p) (addr : SlotAddr) : Word :=
  match addr.toNat with
  | 0x0 => statusSlot b
  | 0x1 => b.cnt.setWidth 32
  | 0x2 => b.acc.setWidth 32
  | 0x3 => (b.acc >>> 32).setWidth 32
  | 0x4 => b.hdr
  | 0x5 => b.pay
  | 0x6 => b.varw.setWidth 32
  | 0x7 => fieldsSlot b
  | 0x8 => tempSlot b
  | 0x9 => checksumSlot b
  | _ => 0

end Sys2Proof.Machine
end

