-- ==== Sys2Proof/Machine/Commands.lean ====
section
/-! DEFINITION. The four commands (46_operations.md): each as an operation on a block at any parameters, giving the block after it
and its response, and as the meaning of its constructor on the machine at the hardware's parameters. -/

namespace Sys2Proof.Machine

variable {p : Params}

/-- FEED (46_operations.md R140): classify, advance the assembler, and, when it emits a bit, push it and step the parser once. -/
def Block.feed (lvl : Bool) (dur : Duration) (b : Block p) : Block p × Response :=
  let a := advance (classify p (protocolLevel p lvl) (durOperand p dur)) b
  match a.2 with
  | none => (a.1, respond .ok .none 0)
  | some h =>
    let f := frameStep (a.1.pushBit h)
    (f.1, respond .ok f.2 0)

/-- RESET (R141). -/
def Block.reset (b : Block p) : Block p × Response := (b.fullReset, respond .ok .none 0)

/-- READ (R142). -/
def Block.read (addr : SlotAddr) (b : Block p) : Block p × Response := (b, respond .ok .none (regRead b addr))

/-- ILLEGAL (R143). -/
def Block.illegal (b : Block p) : Block p × Response := (b, respond .illegal .none 0)

/-- One command on a block at any parameters (00_scope.md R6). -/
def Block.perform (i : Instr) (b : Block p) : Block p × Response :=
  match i with
  | .feed lvl dur => b.feed lvl dur
  | .reset => b.reset
  | .read addr => b.read addr
  | .illegal _ => b.illegal

/-- The meaning of `feed` (R140). -/
def execFeed (lvl : Bool) (dur : Duration) (s : State) : Host.Outcome State Fault Refusal :=
  .next (s.answer (s.block.feed lvl dur))

/-- The meaning of `reset` (R141). -/
def execReset (s : State) : Host.Outcome State Fault Refusal := .next (s.answer s.block.reset)

/-- The meaning of `read` (R142). -/
def execRead (addr : SlotAddr) (s : State) : Host.Outcome State Fault Refusal := .next (s.answer (s.block.read addr))

/-- The meaning of `(illegal)` (R143). -/
def execIllegal (s : State) : Host.Outcome State Fault Refusal := .next (s.answer s.block.illegal)

end Sys2Proof.Machine
end

