-- ==== Sys2Proof/Machine/Dispatch.lean ====
section
/-! DEFINITION. One arm per constructor of `Instr`. -/

namespace Sys2Proof.Machine

def exec (i : Instr) (s : State) : Host.Outcome State Fault Refusal :=
  match i with
  | .feed lvl dur => Sys2Proof.Machine.execFeed lvl dur s
  | .reset => Sys2Proof.Machine.execReset s
  | .read addr => Sys2Proof.Machine.execRead addr s
  | .illegal _ => Sys2Proof.Machine.execIllegal s

end Sys2Proof.Machine
end

