-- ==== Sys2Proof/Machine/Port.lean ====
section
/-! DEFINITION. The host port: power-on reset, the idle step, and the placing of a command where the next step takes it. -/

namespace Sys2Proof.Machine

variable {p : Params}

/-- Power-on reset (70_reset_and_hazards.md R170): every element at its reset value, no response and no event. -/
def StateAt.powerOn (s : StateAt p) : StateAt p := { s with block := Block.powerOn p, response := none }

/-- A step with no input: no state of the block changes without a command or power-on reset (60_exceptions.md R161), and nothing is
answered, since a response is not kept (R156; log entries 3 and 5). -/
def StateAt.idle (s : StateAt p) : StateAt p := { s with response := none }

/-- The machine whose next input is the command word of value `w` (log entry 2). -/
def StateAt.present (s : StateAt p) (w : Nat) : StateAt p :=
  { s with inbox := .command (BitVec.ofNat 40 w) :: s.inbox }

/-! The same at the hardware's parameters. -/

def State.powerOn (s : State) : State where
  toStateAt := s.toStateAt.powerOn

def State.idle (s : State) : State where
  toStateAt := s.toStateAt.idle

def State.present (s : State) (w : Nat) : State where
  toStateAt := s.toStateAt.present w

end Sys2Proof.Machine
end

