-- ==== Sys2Proof/Machine/Step.lean ====
section
/-! DEFINITION. One step: the block takes the oldest input and performs it whole (30_encoding.md R50, 46_operations.md R144). -/

namespace Sys2Proof.Machine

/-- One step of the machine. Inputs are taken in issue order (20_memory.md R48); power-on reset wins over the command presented with
it (60_exceptions.md R157). -/
def step (s : State) : Host.Outcome State Fault Refusal :=
  match s.inbox with
  | [] => .next s.idle
  | .powerOn _ :: rest => .next (State.powerOn { s with inbox := rest })
  | .command w :: rest => exec (decode w) { s with inbox := rest }

/-- `s` with the command word whose low `nbits` bits are those of `w`, and whose bits above them are 0, where `step` takes its next
input (log entry 2). -/
def State.withFetchWord (s : State) (nbits w : Nat) : State := s.present (w % 2 ^ nbits)

end Sys2Proof.Machine
end

