-- ==== Sys2Proof/Machine/Assembly.lean ====
section
/-! DEFINITION. The assembly syntax and the pseudo-instructions of 30_encoding.md R61 and R62: lines as data, their expansion into
commands, and the reading of text. -/

namespace Sys2Proof.Machine

/-- The slot names of 20_memory.md R42. -/
inductive SlotName where
  | status
  | count
  | accLo
  | accHi
  | header
  | payload
  | varbits
  | fields
  | temp
  | checksum
  deriving DecidableEq, Repr

/-- The address of a named slot (20_memory.md R42). -/
def SlotName.addr : SlotName → Nat
  | .status => 0x0
  | .count => 0x1
  | .accLo => 0x2
  | .accHi => 0x3
  | .header => 0x4
  | .payload => 0x5
  | .varbits => 0x6
  | .fields => 0x7
  | .temp => 0x8
  | .checksum => 0x9

/-- `<reg>`: a name or an integer (R61). -/
inductive SlotRef where
  | name (n : SlotName)
  | number (n : Nat)
  deriving DecidableEq, Repr

/-- One line of assembly (R61, R62). The operands are unbounded, so that an out-of-range one can be told. `none` for a duration
stands for the default. -/
inductive AsmLine where
  | feed (lvl dur : Nat)
  | reset
  | read (reg : SlotRef)
  | bit1 (d : Option Nat)
  | bit0 (d : Option Nat)
  | bits (string : List Bool) (d : Option Nat)
  | preamble (d : Option Nat)
  | word (n k : Nat) (d : Option Nat)
  | glitch
  deriving DecidableEq, Repr

/-- An assembly error (R61). -/
inductive AsmError where
  | levelOutOfRange
  | durationOutOfRange
  | registerOutOfRange
  | bitCountOutOfRange
  | valueOutOfRange
  | unknownCommand
  | malformedOperands
  deriving DecidableEq, Repr

/-- `<dur>` or `<d>`: 0 to 2^32-1, never truncated (R61). -/
def asmDuration (d : Nat) : Except AsmError Duration :=
  if d < 2 ^ 32 then .ok (BitVec.ofNat 32 d) else .error .durationOutOfRange

/-- `<d>` with its default, the nominal short pulse (R62). -/
def asmHalfDuration (p : Params) (d : Option Nat) : Except AsmError Duration := asmDuration (d.getD p.shortUs)

/-- `<reg>`: an integer is 0 to 15 (R61). -/
def asmSlot : SlotRef → Except AsmError SlotAddr
  | .name n => .ok (BitVec.ofNat 4 n.addr)
  | .number n => if n < 16 then .ok (BitVec.ofNat 4 n) else .error .registerOutOfRange

/-- The two pulses of one bit (R62): the raw levels whose protocol half-values are (not b, b). With `LEVEL_INVERT` true, `bit1` is
`feed 1` then `feed 0`. -/
def bitPulses (p : Params) (d : Duration) (b : Bool) : List Instr :=
  [.feed (!b ^^ p.levelInvert) d, .feed (b ^^ p.levelInvert) d]

/-- `bits` (R62): the pulses of each bit, left to right. -/
def bitsPulses (p : Params) (d : Duration) (bs : List Bool) : List Instr := bs.flatMap (bitPulses p d)

/-- The `k`-bit binary form of `n`, most significant bit first (R62). -/
def bitsMsbFirst : Nat → Nat → List Bool
  | 0, _ => []
  | k + 1, n => n.testBit k :: bitsMsbFirst k n

/-- The preamble's bits, first-sent bit leftmost (R62). -/
def preambleBits (p : Params) : List Bool := bitsMsbFirst p.preambleLen p.preamblePat.toNat

/-- The commands a line assembles to (R61, R62). -/
def AsmLine.expand (p : Params) : AsmLine → Except AsmError (List Instr)
  | .feed lvl dur =>
    if 2 ≤ lvl then .error .levelOutOfRange
    else (asmDuration dur).map fun d => [.feed (lvl == 1) d]
  | .reset => .ok [.reset]
  | .read reg => (asmSlot reg).map fun a => [.read a]
  | .bit1 d => (asmHalfDuration p d).map fun d => bitPulses p d true
  | .bit0 d => (asmHalfDuration p d).map fun d => bitPulses p d false
  | .bits string d => (asmHalfDuration p d).map fun d => bitsPulses p d string
  | .preamble d => (asmHalfDuration p d).map fun d => bitsPulses p d (preambleBits p)
  | .word n k d =>
    if k = 0 ∨ 32 < k then .error .bitCountOutOfRange
    else if 2 ^ k ≤ n then .error .valueOutOfRange
    else (asmHalfDuration p d).map fun d => bitsPulses p d (bitsMsbFirst k n)
  | .glitch => .ok [.feed false 0]

/-- The command words of a line. -/
def AsmLine.assemble (p : Params) (l : AsmLine) : Except AsmError (List CommandWord) :=
  (l.expand p).map fun is => is.map encode

/-! ### Text -/

/-- A token of a line: a run of other characters, or a comma. -/
inductive Token where
  | word (cs : List Char)
  | comma
  deriving DecidableEq, Repr

/-- The run collected so far (last character first), as a token before `rest`. -/
def flushToken (run : List Char) (rest : List Token) : List Token :=
  if run.isEmpty then rest else .word run.reverse :: rest

/-- The tokens of a line; `;` starts a comment (R61). DESIGN CHOICE (log entry 18): blanks, tabs and carriage returns separate tokens. -/
def lexLine (run : List Char) : List Char → List Token
  | [] => flushToken run []
  | c :: cs =>
    if c = ';' then flushToken run []
    else if c = ',' then flushToken run (.comma :: lexLine [] cs)
    else if c = ' ' ∨ c = '\t' ∨ c = '\r' then flushToken run (lexLine [] cs)
    else lexLine (c :: run) cs

/-- The value of a digit character, letters of either case. -/
def digitValue (c : Char) : Option Nat :=
  if '0' ≤ c ∧ c ≤ '9' then some (c.toNat - 48)
  else if 'a' ≤ c ∧ c ≤ 'f' then some (c.toNat - 87)
  else if 'A' ≤ c ∧ c ≤ 'F' then some (c.toNat - 55)
  else none

/-- Digits in a base, most significant first, after the value read so far. -/
def digitsValue (base : Nat) (acc : Nat) : List Char → Option Nat
  | [] => some acc
  | c :: cs =>
    match digitValue c with
    | some v => if v < base then digitsValue base (acc * base + v) cs else none
    | none => none

/-- A decimal or `0x`-hexadecimal integer, as R61 writes `<dur>`. DESIGN CHOICE (log entry 18): leading zeros are read, and hexadecimal digits
of either case. -/
def readNumber : List Char → Option Nat
  | [] => none
  | '0' :: 'x' :: d :: ds => digitsValue 16 0 (d :: ds)
  | c :: cs => digitsValue 10 0 (c :: cs)

/-- A string of `0` and `1` (R62). -/
def readBits : List Char → Option (List Bool)
  | [] => some []
  | '0' :: cs => (readBits cs).map (false :: ·)
  | '1' :: cs => (readBits cs).map (true :: ·)
  | _ :: _ => none

/-- The slot names as R42 spells them. -/
def slotNames : List (List Char × SlotName) :=
  [(['S', 'T', 'A', 'T', 'U', 'S'], .status), (['C', 'O', 'U', 'N', 'T'], .count), (['A', 'C', 'C', '_', 'L', 'O'], .accLo),
   (['A', 'C', 'C', '_', 'H', 'I'], .accHi), (['H', 'E', 'A', 'D', 'E', 'R'], .header),
   (['P', 'A', 'Y', 'L', 'O', 'A', 'D'], .payload), (['V', 'A', 'R', 'B', 'I', 'T', 'S'], .varbits),
   (['F', 'I', 'E', 'L', 'D', 'S'], .fields), (['T', 'E', 'M', 'P'], .temp),
   (['C', 'H', 'E', 'C', 'K', 'S', 'U', 'M'], .checksum)]

/-- `<reg>` (R61). DESIGN CHOICE (log entry 18): an integer is read in the notation of `<dur>`. -/
def readSlot (cs : List Char) : Option SlotRef :=
  match slotNames.lookup cs with
  | some n => some (.name n)
  | none => (readNumber cs).map .number

/-- The optional trailing `<d>` (R62). DESIGN CHOICE (log entry 18): it is read in the notation of `<dur>`. -/
def readDefault : List Token → Option (Option Nat)
  | [] => some none
  | [.word d] => (readNumber d).map some
  | _ => none

/-- The command names of R61 and R62. -/
inductive Keyword where
  | feed
  | reset
  | read
  | bit1
  | bit0
  | bits
  | preamble
  | word
  | glitch
  deriving DecidableEq, Repr

def keywords : List (List Char × Keyword) :=
  [(['f', 'e', 'e', 'd'], .feed), (['r', 'e', 's', 'e', 't'], .reset), (['r', 'e', 'a', 'd'], .read),
   (['b', 'i', 't', '1'], .bit1), (['b', 'i', 't', '0'], .bit0), (['b', 'i', 't', 's'], .bits),
   (['p', 'r', 'e', 'a', 'm', 'b', 'l', 'e'], .preamble), (['w', 'o', 'r', 'd'], .word),
   (['g', 'l', 'i', 't', 'c', 'h'], .glitch)]

/-- The operands of a command, where they have its form. DESIGN CHOICE (log entry 18): `<lvl>`, `<n>` and `<k>` are read in the notation that
R61 gives for `<dur>`; no comma stands before `<d>`. -/
def readOperands (k : Keyword) (args : List Token) : Option AsmLine :=
  match k with
  | .feed =>
    match args with
    | [.word l, .comma, .word d] => (readNumber l).bind fun l => (readNumber d).map fun d => .feed l d
    | _ => none
  | .reset => if args.isEmpty then some .reset else none
  | .read =>
    match args with
    | [.word r] => (readSlot r).map .read
    | _ => none
  | .bit1 => (readDefault args).map .bit1
  | .bit0 => (readDefault args).map .bit0
  | .bits =>
    match args with
    | .word bs :: d => (readBits bs).bind fun bs => (readDefault d).map fun d => .bits bs d
    | _ => none
  | .preamble => (readDefault args).map .preamble
  | .word =>
    match args with
    | .word n :: .comma :: .word k :: d =>
      (readNumber n).bind fun n => (readNumber k).bind fun k => (readDefault d).map fun d => .word n k d
    | _ => none
  | .glitch => if args.isEmpty then some .glitch else none

/-- One line of text: a blank or comment line holds no command (R61). -/
def readLine (cs : List Char) : Except AsmError (Option AsmLine) :=
  match lexLine [] cs with
  | [] => .ok none
  | .comma :: _ => .error .unknownCommand
  | .word m :: args =>
    match keywords.lookup m with
    | none => .error .unknownCommand
    | some k =>
      match readOperands k args with
      | none => .error .malformedOperands
      | some l => .ok (some l)

/-- Lines of text, one command a line (R61), each ended by a line feed (log entry 18). -/
def splitLines (run : List Char) : List Char → List (List Char)
  | [] => [run.reverse]
  | c :: cs => if c = '\n' then run.reverse :: splitLines [] cs else splitLines (c :: run) cs

/-- The command words of lines of text; the first error is the text's (log entry 18). -/
def assembleLines (p : Params) : List (List Char) → Except AsmError (List CommandWord)
  | [] => .ok []
  | l :: ls =>
    match readLine l with
    | .error e => .error e
    | .ok none => assembleLines p ls
    | .ok (some a) =>
      match a.assemble p with
      | .error e => .error e
      | .ok ws => (assembleLines p ls).map (ws ++ ·)

/-- The command words of a text. -/
def assembleText (p : Params) (text : List Char) : Except AsmError (List CommandWord) :=
  assembleLines p (splitLines [] text)

end Sys2Proof.Machine
end

