-- ==== Sys2Proof/Machine/Configured.lean ====
section
/-! DEFINITION. The machine at any parameters (00_scope.md R6 gives each one to the model as an argument): its commands and its step.
`exec` and `step` are these at the hardware's values. -/

namespace Sys2Proof.Machine

variable {p : Params}

/-- The meaning of every command at the parameters `p`. -/
def StateAt.exec (i : Instr) (s : StateAt p) : Host.Outcome (StateAt p) Fault Refusal := .next (s.answer (s.block.perform i))

/-- One step at the parameters `p`: the oldest input, as `Machine.step` takes it. -/
def StateAt.step (s : StateAt p) : Host.Outcome (StateAt p) Fault Refusal :=
  match s.inbox with
  | [] => .next s.idle
  | .powerOn _ :: rest => .next (StateAt.powerOn { s with inbox := rest })
  | .command w :: rest => StateAt.exec (decode w) { s with inbox := rest }

end Sys2Proof.Machine
end

