-- ==== Sys2Proof/Machine/Instances.lean ====
section
/-! DEFINITION. Several blocks in one system (60_exceptions.md R158): each owns its state, and a step touches one. -/

namespace Sys2Proof.Machine

/-- One step of the block at place `k` of a system; the places are the system's, since a block has no identifier of its own. -/
def stepInstance (k : Nat) (sys : List State) : Host.Outcome (List State) Fault Refusal :=
  match sys[k]? with
  | none => .next sys
  | some s =>
    match step s with
    | .next t => .next (sys.set k t)
    | .fault r => .fault r
    | .refused r => .refused r

end Sys2Proof.Machine
end

