-- ==== Sys2Proof/Safety.lean ====
section
/-! DEFINITION. What holds of a state in a run (10_state.md R29), and the terms the statements are made of. -/

namespace Sys2Proof.Machine

variable {p : Params}

/-- The invariants of 10_state.md R29 that speak of one state: (b) to (g), but for the last clause of (e), which speaks of the past
and is `Tagged.Inv`. (a) holds by the type of `pstate`. -/
structure Block.Inv (b : Block p) : Prop where
  /-- (b) -/
  headerCount : b.pstate = .header → b.cnt.toNat ≤ 31
  /-- (c) -/
  payloadCount : b.pstate = .payload → 1 ≤ b.varw.toNat ∧ b.varw.toNat ≤ 24 ∧ b.cnt.toNat ≤ b.varw.toNat + 7
  /-- (d) -/
  accHoldsPushed : b.pstate = .header ∨ b.pstate = .payload → b.acc.toNat < 2 ^ b.cnt.toNat
  /-- (e) -/
  payNeedsHdr : b.payValid = true → b.hdrValid = true ∧ 1 ≤ b.varw.toNat
  /-- (f) -/
  payloadFlags : b.pstate = .payload → b.hdrValid = true ∧ b.payValid = false
  /-- (g) -/
  varwLookup : b.hdrValid = true → b.varw.toNat = (lookup p (sensorId b.hdr)).1
  varwZero : b.hdrValid = false → b.varw = 0

/-- The block's invariant, of the machine. -/
def State.Inv (s : State) : Prop := s.block.Inv

/-- A duration in the short or the long window of 40_pulse_classifier.md R72. -/
abbrev ValidDuration (d : Duration) : Prop :=
  301 ≤ d.toNat ∧ d.toNat ≤ 699 ∨ 801 ≤ d.toNat ∧ d.toNat ≤ 1199

/-- At the hardware's `LEVEL_INVERT`, the FEED of this pulse is the second half of a pair with a transition
(41_manchester_assembler.md R82): its half-value is `!lvl`, and the held one differs from it. -/
abbrev Block.Completes (lvl : Bool) (dur : Duration) (b : Block p) : Prop :=
  ValidDuration dur ∧ b.hold = true ∧ b.first = lvl

/-- The block when such a FEED has pushed its bit and the parser has not yet run (R82). -/
def Block.afterPush (lvl : Bool) (b : Block p) : Block p := ({ b with hold := false } : Block p).pushBit (!lvl)

/-- The block after a list of commands, and their responses in order. -/
def Block.performAll : List Instr → Block p → Block p × List Response
  | [], b => (b, [])
  | i :: is, b =>
    let r := b.perform i
    let q := Block.performAll is r.1
    (q.1, r.2 :: q.2)

/-- The bit a command pushes, if it pushes one (41_manchester_assembler.md R86). -/
def Block.pushedBit (i : Instr) (b : Block p) : Option Bool :=
  match i with
  | .feed lvl dur => (advance (classify p (protocolLevel p lvl) (durOperand p dur)) b).2
  | .reset => none
  | .read _ => none
  | .illegal _ => none

/-- How many bits a list of commands pushes. -/
def Block.pushCount : List Instr → Block p → Nat
  | [], _ => 0
  | i :: is, b => (if (b.pushedBit i).isSome then 1 else 0) + Block.pushCount is (b.perform i).1

/-- A block with a count of the preambles found, and the number of the frame that `HDR` and that `PAY` was captured from. The counts
are no state of the block: they say what 10_state.md R29 (e) means by the same frame (log entry 20). -/
structure Tagged (p : Params) where
  block : Block p
  frame : Nat
  hdrFrame : Nat
  payFrame : Nat

/-- One command, with the counts kept: a preamble match starts a frame, a header completion captures `HDR` from it, a payload
completion captures `PAY` from it. -/
def Tagged.perform (i : Instr) (t : Tagged p) : Tagged p :=
  let r := t.block.perform i
  { block := r.1
    frame := if t.block.pstate = .search ∧ r.1.pstate = .header then t.frame + 1 else t.frame
    hdrFrame :=
      if t.block.pstate = .header ∧ (r.1.pstate = .payload ∨ r.2.event = .headerOnly) then t.frame else t.hdrFrame
    payFrame := if r.2.event = .full then t.frame else t.payFrame }

/-- 10_state.md R29 (e), the last clause: while `PAY_VALID` is 1, `HDR` and `PAY` were captured from the same frame; and in PAYLOAD
`HDR` is of the frame being received. -/
structure Tagged.Inv (t : Tagged p) : Prop where
  sameFrame : t.block.payValid = true → t.hdrFrame = t.payFrame
  payloadFrame : t.block.pstate = .payload → t.hdrFrame = t.frame

/-- Two blocks that differ only in what lies above bit 39 of the accumulator (92_eei_decisions.md D5). -/
structure SameButHighAcc {p q : Params} (b : Block p) (c : Block q) : Prop where
  hold : b.hold = c.hold
  first : b.first = c.first
  acc : b.acc.setWidth 40 = c.acc.setWidth 40
  cnt : b.cnt.toNat = c.cnt.toNat
  pstate : b.pstate = c.pstate
  hdr : b.hdr = c.hdr
  pay : b.pay = c.pay
  varw : b.varw = c.varw
  hdrValid : b.hdrValid = c.hdrValid
  payValid : b.payValid = c.payValid

end Sys2Proof.Machine
end

