-- ==== Sys2Proof/Certificates/Slice0/Obligations.lean ====
section
/-! DEFINITION. The statements for the provers. Each docstring names the rule of spec/ a statement formalises. -/

open Sys2Proof Sys2Proof.Machine

/-! ### Reset, the port and the step -/

/-- 10_state.md R31 (the spec's decision D10): the value of every element after power-on reset, at every configuration. That a power-on input sets the block so is
`PowerOnWinsOverPresentedCommand`. -/
def Obligations.PowerOnSetsEveryElement : Prop :=
  State.reset.block = Block.powerOn params ∧
    ∀ p : Params,
      Block.powerOn p =
        { hold := false, first := false, acc := 0, cnt := 0, pstate := .search, hdr := 0, pay := 0, varw := 0
          hdrValid := false, payValid := false }

/-- 60_exceptions.md R157 and 70_reset_and_hazards.md R170: power-on reset wins over the command presented with it, and answers
nothing. That the presented word is lost and the input is taken is the model's choice (log entry 4). -/
def Obligations.PowerOnWinsOverPresentedCommand : Prop :=
  ∀ (s : State) (w : Option CommandWord) (rest : List HostInput), s.inbox = .powerOn w :: rest →
    step s = .next { block := Block.powerOn params, inbox := rest, response := none }

/-- A step whose next input is a command word is `exec` of the decoded word, the word taken. That the input waits in a list is the
model's choice (log entry 1). -/
def Obligations.StepRunsDecodedCommand : Prop :=
  ∀ (s : State) (w : CommandWord) (rest : List HostInput), s.inbox = .command w :: rest →
    step s = exec (decode w) { s with inbox := rest }

/-- 00_scope.md R6: the machine at every parameter value: what its step does with no input, with power-on reset and with a command word;
and the machine of this spec is the one at `params`, in its meanings and its step. The inputs are the model's choice (log entries 1, 3, 4
and 5). -/
def Obligations.MachineAtEveryParameterValue : Prop :=
  (∀ (p : Params) (s : StateAt p),
    (s.inbox = [] → s.step = .next { s with response := none }) ∧
    ∀ rest : List HostInput,
      (∀ w : Option CommandWord, s.inbox = .powerOn w :: rest →
        s.step = .next { block := Block.powerOn p, inbox := rest, response := none }) ∧
      ∀ w : CommandWord, s.inbox = .command w :: rest →
        s.step = .next
          { block := (s.block.perform (decode w)).1, inbox := rest, response := some (s.block.perform (decode w)).2 }) ∧
  ∀ s : State,
    (∃ t, s.toStateAt.step = .next t ∧ step s = .next { toStateAt := t }) ∧
    ∀ i : Instr, ∃ t, s.toStateAt.exec i = .next t ∧ exec i s = .next { toStateAt := t }

/-- A step whose next input is the word of a well-formed command runs that command, and `withFetchWord` places it so. -/
def Obligations.StepRunsEncodedCommand : Prop :=
  ∀ (i : Instr), i.wellFormed = true →
    (∀ (s : State) (rest : List HostInput), s.inbox = .command (encode i) :: rest →
      step s = exec i { s with inbox := rest }) ∧
    ∀ s : State, step (s.withFetchWord 40 (encode i).toNat) = exec i s

/-- 60_exceptions.md R161: the block does nothing between commands. That a step without an input is one at all, and that it clears the
last response, is the model's choice (log entries 3 and 5). -/
def Obligations.StepWithoutInputKeepsBlock : Prop :=
  ∀ s : State, s.inbox = [] → step s = .next { s with response := none }

/-- 60_exceptions.md R155 and 46_operations.md R144: every command completes; the machine neither faults nor refuses. -/
def Obligations.EveryStepCompletes : Prop :=
  ∀ s : State, ∃ t, step s = .next t

/-- 20_memory.md R48: inputs are performed one at a time, in issue order: a step takes the oldest and no other, whatever the command
does. -/
def Obligations.StepTakesOldestInputOnly : Prop :=
  ∀ s t : State, step s = .next t → t.inbox = s.inbox.tail

/-- 30_encoding.md R57: every command returns one response; the status is ILLEGAL exactly for an illegal word; only a READ returns data
and only a FEED an event; and the packing of its three fields. -/
def Obligations.EveryCommandAnswersOneResponse : Prop :=
  (∀ (i : Instr) (s : State), ∃ t r, exec i s = .next t ∧ t.response = some r ∧
      (r.status = .illegal ↔ ∃ w, i = .illegal w) ∧
      (r.data ≠ 0 → ∃ a, i = .read a ∧ r.data = regRead s.block a) ∧
      (∀ a, i = .read a → r.data = regRead s.block a) ∧
      (r.event ≠ .none → ∃ lvl dur, i = .feed lvl dur)) ∧
    ∀ r : Response,
      r.pack.getLsbD 34 = decide (r.status = .illegal) ∧
      (r.pack.extractLsb' 32 2).toNat = (match r.event with | .none => 0 | .headerOnly => 1 | .full => 2) ∧
      r.pack.extractLsb' 0 32 = r.data

/-! ### Encoding -/

/-- 30_encoding.md R56: which words are which command, by the masks of spec/opcode_table.json, with their operands. -/
def Obligations.DecodeFollowsOpcodeTable : Prop :=
  ∀ w : CommandWord,
    (w &&& 0xFE00000000 = 0x4000000000 → decode w = .feed (w.getLsbD 32) (w.setWidth 32)) ∧
    (w = 0x8000000000 → decode w = .reset) ∧
    (w &&& 0xFFFFFFFFF0 = 0xC000000000 → decode w = .read (w.setWidth 4)) ∧
    (w &&& 0xFE00000000 ≠ 0x4000000000 → w ≠ 0x8000000000 → w &&& 0xFFFFFFFFF0 ≠ 0xC000000000 → decode w = .illegal w)

/-- Decoding the word of a well-formed command gives it back, at every operand. -/
def Obligations.DecodeOfEncode : Prop :=
  ∀ i : Instr, i.wellFormed = true → decode (encode i) = i

/-- Every word is the word of exactly the command it decodes to, which is well-formed: no bit of a word is lost. -/
def Obligations.EncodeOfDecode : Prop :=
  ∀ w : CommandWord, encode (decode w) = w ∧ (decode w).wellFormed = true

/-- Words of 95_test_vectors.md V1 and what they decode to. -/
def Obligations.SampleWordsDecode : Prop :=
  decode 0x41000001F4 = .feed true 500 ∧
  decode 0x40000003E8 = .feed false 1000 ∧
  decode 0x41FFFFFFFF = .feed true 0xFFFFFFFF ∧
  decode 0x43000001F4 = .illegal 0x43000001F4 ∧
  decode 0x8000000000 = .reset ∧
  decode 0x8000000001 = .illegal 0x8000000001 ∧
  decode 0xC000000009 = .read 9 ∧
  decode 0xC000000010 = .illegal 0xC000000010 ∧
  decode 0x0000000000 = .illegal 0

/-- 30_encoding.md R61: the word each line of the syntax assembles to, and the errors; no operand is truncated. -/
def Obligations.AssemblyLinesAssemble : Prop :=
  (∀ lvl dur : Nat, lvl < 2 → dur < 2 ^ 32 →
    ∃ w : CommandWord, (AsmLine.feed lvl dur).assemble params = .ok [w] ∧
      w.toNat = 0x4000000000 + lvl * 2 ^ 32 + dur) ∧
  (∀ lvl dur : Nat, ¬ (lvl < 2 ∧ dur < 2 ^ 32) → ∃ e, (AsmLine.feed lvl dur).assemble params = .error e) ∧
  AsmLine.reset.assemble params = .ok [0x8000000000] ∧
  (∀ n : Nat, n < 16 →
    ∃ w : CommandWord, (AsmLine.read (.number n)).assemble params = .ok [w] ∧ w.toNat = 0xC000000000 + n) ∧
  ∀ n : Nat, 16 ≤ n → (AsmLine.read (.number n)).assemble params = .error .registerOutOfRange

/-! ### RESET, READ, ILLEGAL -/

/-- 46_operations.md R141, 41_manchester_assembler.md R85, 10_state.md R32 (the spec's decision D8): RESET's word, what it clears and keeps, its response, and that
a second RESET changes nothing. -/
def Obligations.ResetClearsAndKeepsReading : Prop :=
  encode .reset = 0x8000000000 ∧
  ∀ s : State,
    exec .reset s = .next
      { s with
        block := { s.block with hold := false, first := false, acc := 0, cnt := 0, pstate := .search }
        response := some { status := .ok, event := .none, data := 0 } } ∧
    ∀ t, exec .reset s = .next t → exec .reset t = .next t

/-- 20_memory.md R41, R42, R43 and 46_operations.md R142 (the spec's decision D12): READ's word; it writes no state, answers OK and NONE, and the data is the slot's
as the register map gives it, field by field, at any admissible widths. What CHANNEL, TENTHS and SUM are is stated by statements of their own. -/
def Obligations.ReadAnswersRegisterMap : Prop :=
  (∀ a : SlotAddr, (encode (.read a)).extractLsb' 38 2 = 0b11 ∧ (encode (.read a)).extractLsb' 4 34 = 0 ∧
    (encode (.read a)).extractLsb' 0 4 = a) ∧
  (∀ (s : State) (a : SlotAddr),
    exec (.read a) s = .next { s with response := some { status := .ok, event := .none, data := regRead s.block a } }) ∧
  ∀ (p : Params), p.Admissible → ∀ b : Block p,
    ((regRead b 0x0).extractLsb' 0 2 = (match b.pstate with | .search => 0 | .header => 1 | .payload => 2) ∧
      (regRead b 0x0).getLsbD 2 = b.hold ∧ (regRead b 0x0).getLsbD 3 = b.first ∧
      (regRead b 0x0).getLsbD 4 = b.hdrValid ∧ (regRead b 0x0).getLsbD 5 = b.payValid ∧
      (regRead b 0x0).extractLsb' 6 26 = 0) ∧
    (∀ i < 32, (regRead b 0x1).getLsbD i = b.cnt.getLsbD i) ∧
    (∀ i < 32, (regRead b 0x2).getLsbD i = b.acc.getLsbD i) ∧
    (∀ i < 32, (regRead b 0x3).getLsbD i = b.acc.getLsbD (32 + i)) ∧
    regRead b 0x4 = b.hdr ∧
    regRead b 0x5 = b.pay ∧
    ((regRead b 0x6).extractLsb' 0 8 = b.varw ∧ (regRead b 0x6).extractLsb' 8 24 = 0) ∧
    ((regRead b 0x7).extractLsb' 0 16 = b.hdr.extractLsb' 16 16 ∧
      ((regRead b 0x7).extractLsb' 16 3).toNat = channelOf (b.hdr.extractLsb' 12 4) ∧
      (regRead b 0x7).getLsbD 19 = b.hdr.getLsbD 2 ∧
      (regRead b 0x7).extractLsb' 20 8 = b.hdr.extractLsb' 4 8 ∧ (regRead b 0x7).extractLsb' 28 4 = 0) ∧
    (((regRead b 0x8).extractLsb' 0 16).toInt = tempTenths b.pay ∧
      (regRead b 0x8).getLsbD 16 = (b.payValid && decide ((lookup p (b.hdr.extractLsb' 16 16)).2 = .tempOnly)) ∧
      (regRead b 0x8).extractLsb' 17 15 = 0) ∧
    ((regRead b 0x9).extractLsb' 0 8 = (checksum b.hdr b.pay).1 ∧
      (regRead b 0x9).extractLsb' 8 8 = b.pay.extractLsb' 0 8 ∧
      (regRead b 0x9).getLsbD 16 = (b.payValid && decide ((checksum b.hdr b.pay).1 = b.pay.extractLsb' 0 8)) ∧
      (regRead b 0x9).extractLsb' 17 15 = 0) ∧
    ∀ a : SlotAddr, 0xA ≤ a.toNat → regRead b a = 0

/-- 46_operations.md R143 (the spec's decision D14): which words are no command, and that such a word is answered ILLEGAL, NONE, 0 and writes no state. -/
def Obligations.IllegalWordChangesNothing : Prop :=
  (∀ (w : CommandWord) (s : State),
    exec (.illegal w) s = .next { s with response := some { status := .illegal, event := .none, data := 0 } }) ∧
  ∀ w : CommandWord,
    decode w = .illegal w ↔
      w.extractLsb' 38 2 = 0b00 ∨
      (w.extractLsb' 38 2 = 0b01 ∧ w.extractLsb' 33 5 ≠ 0) ∨
      (w.extractLsb' 38 2 = 0b10 ∧ w.extractLsb' 0 38 ≠ 0) ∨
      (w.extractLsb' 38 2 = 0b11 ∧ w.extractLsb' 4 34 ≠ 0)

/-! ### FEED: classifier and assembler -/

/-- 40_pulse_classifier.md R71 and R72 (the spec's decision D4): the valid windows are the open intervals, at every admissible configuration. -/
def Obligations.ClassifierWindows : Prop :=
  ∀ (p : Params), p.Admissible → ∀ (pl : Bool) (d : Duration),
    (301 ≤ d.toNat ∧ d.toNat ≤ 699 → classify p pl (durOperand p d) = .valid .short pl) ∧
    (801 ≤ d.toNat ∧ d.toNat ≤ 1199 → classify p pl (durOperand p d) = .valid .long pl) ∧
    (d.toNat ≤ 300 ∨ 700 ≤ d.toNat ∧ d.toNat ≤ 800 ∨ 1200 ≤ d.toNat → classify p pl (durOperand p d) = .invalid)

/-- 41_manchester_assembler.md R80: an Invalid symbol is a full reset, in every state. -/
def Obligations.FeedInvalidPulseFullReset : Prop :=
  ∀ (s : State) (lvl : Bool) (dur : Duration), classify params (protocolLevel params lvl) (durOperand params dur) = .invalid →
    exec (.feed lvl dur) s = .next
      { s with
        block := { s.block with hold := false, first := false, acc := 0, cnt := 0, pstate := .search }
        response := some { status := .ok, event := .none, data := 0 } }

/-- 41_manchester_assembler.md R81: the first half of a pair is held, and nothing else changes. -/
def Obligations.FeedFirstHalfIsHeld : Prop :=
  ∀ (s : State) (lvl : Bool) (dur : Duration) (c : PulseClass) (h : Bool),
    classify params (protocolLevel params lvl) (durOperand params dur) = .valid c h → s.block.hold = false →
    exec (.feed lvl dur) s = .next
      { s with
        block := { s.block with hold := true, first := h }
        response := some { status := .ok, event := .none, data := 0 } }

/-- 41_manchester_assembler.md R83: a second half without a transition is a full reset; the second symbol is discarded. -/
def Obligations.FeedDesyncFullReset : Prop :=
  ∀ (s : State) (lvl : Bool) (dur : Duration) (c : PulseClass) (h : Bool),
    classify params (protocolLevel params lvl) (durOperand params dur) = .valid c h → s.block.hold = true → s.block.first = h →
    exec (.feed lvl dur) s = .next
      { s with
        block := { s.block with hold := false, first := false, acc := 0, cnt := 0, pstate := .search }
        response := some { status := .ok, event := .none, data := 0 } }

/-- 41_manchester_assembler.md R82: a second half with a transition clears `hold`, keeps `first`, pushes the bit that is its half-value,
and steps the parser once; the event is the parser's. -/
def Obligations.FeedTransitionPushesHalfValue : Prop :=
  ∀ (s : State) (lvl : Bool) (dur : Duration) (c : PulseClass) (h : Bool),
    classify params (protocolLevel params lvl) (durOperand params dur) = .valid c h → s.block.hold = true → s.block.first ≠ h →
    exec (.feed lvl dur) s = .next
      { s with
        block := (frameStep (({ s.block with hold := false } : Block params).pushBit h)).1
        response := some
          { status := .ok
            event := (frameStep (({ s.block with hold := false } : Block params).pushBit h)).2
            data := 0 } }

/-- 41_manchester_assembler.md R84: only the half-value of a valid symbol takes part; two pulses of one half-value, of one class or of two,
have one effect. -/
def Obligations.FeedIgnoresPulseClass : Prop :=
  ∀ (s : State) (l m : Bool) (d e : Duration) (c c' : PulseClass) (h : Bool),
    classify params (protocolLevel params l) (durOperand params d) = .valid c h → classify params (protocolLevel params m) (durOperand params e) = .valid c' h →
    exec (.feed l d) s = exec (.feed m e) s

/-- 46_operations.md R140 and 60_exceptions.md R157: what FEED does, by its operands: one of a full reset, a pending half, or a pushed
bit with one parser step. The half-value of a raw level is its inverse: `LEVEL_INVERT`, the spec's decision D3 (log entry 9). -/
def Obligations.FeedByLevelAndDuration : Prop :=
  ∀ (s : State) (lvl : Bool) (dur : Duration),
    let q : Block params × Event :=
      if ¬ ValidDuration dur then (s.block.fullReset, .none)
      else if s.block.hold = false then ({ s.block with hold := true, first := !lvl }, .none)
      else if s.block.first = lvl then frameStep (s.block.afterPush lvl)
      else (s.block.fullReset, .none)
    exec (.feed lvl dur) s = .next { s with block := q.1, response := some { status := .ok, event := q.2, data := 0 } }

/-- 42_bit_accumulator.md R90 (the spec's decisions D5 and D6): a push shifts the bit in at bit 0 and counts it, both modulo their widths, and writes nothing else; for
any widths. -/
def Obligations.PushShiftsInAndCounts : Prop :=
  ∀ (p : Params) (b : Block p) (x : Bool),
    (b.pushBit x).acc.toNat = (2 * b.acc.toNat + x.toNat) % 2 ^ p.accW ∧
    (b.pushBit x).cnt.toNat = (b.cnt.toNat + 1) % 2 ^ p.cntW ∧
    b.pushBit x = { b with acc := (b.pushBit x).acc, cnt := (b.pushBit x).cnt }

/-- 42_bit_accumulator.md R93: the count wraps to 0, and while it stands below 18 the next bit cannot match the preamble. -/
def Obligations.WrappedCountBlocksPreamble : Prop :=
  ∀ (p : Params), p.Admissible → ∀ (b : Block p) (x : Bool),
    (b.cnt.toNat = 2 ^ p.cntW - 1 → (b.pushBit x).cnt = 0) ∧
    (b.pstate = .search → b.cnt.toNat < 18 → frameStep (b.pushBit x) = (b.pushBit x, .none))

/-! ### FEED: the frame parser -/

/-- 43_frame_parser.md R101: the preamble match, with the mask of the spec's decision D7 (log entry 9). -/
def Obligations.FeedPreambleMatchEntersHeader : Prop :=
  ∀ (s : State) (lvl : Bool) (dur : Duration), s.block.Completes lvl dur → s.block.pstate = .search →
    19 ≤ (s.block.afterPush lvl).cnt.toNat → (s.block.afterPush lvl).acc &&& 0x7FFFF = 0x7FFF5 →
    exec (.feed lvl dur) s = .next
      { s with
        block := { s.block with hold := false, acc := 0, cnt := 0, pstate := .header }
        response := some { status := .ok, event := .none, data := 0 } }

/-- 43_frame_parser.md R102, with the mask of the spec's decision D7 (log entry 9): in SEARCH without a match the parser writes nothing. -/
def Obligations.FeedWithoutMatchStaysInSearch : Prop :=
  ∀ (s : State) (lvl : Bool) (dur : Duration), s.block.Completes lvl dur → s.block.pstate = .search →
    ¬ (19 ≤ (s.block.afterPush lvl).cnt.toNat ∧ (s.block.afterPush lvl).acc &&& 0x7FFFF = 0x7FFF5) →
    exec (.feed lvl dur) s = .next
      { s with
        block := s.block.afterPush lvl
        response := some { status := .ok, event := .none, data := 0 } }

/-- 43_frame_parser.md R101 and R102, and 90_conflicts.md C2: the search step at every admissible configuration. With the mask 0x7FFFF only
the 19 newest bits count; with 0xFFFFF the 20th newest must be 0 as well. -/
def Obligations.SearchStepUnderBothMasks : Prop :=
  ∀ (p : Params), p.Admissible → ∀ b : Block p, b.pstate = .search →
    frameStep b =
      if 19 ≤ b.cnt.toNat ∧ b.acc.extractLsb' 0 19 = 0x7FFF5 ∧ (p.preambleMask = 0xFFFFF → b.acc.getLsbD 19 = false)
        then ({ b with acc := 0, cnt := 0, pstate := .header }, .none) else (b, .none)

/-- 43_frame_parser.md R103 (the spec's decision D10): header completion, for a sensor type with a payload and for one without. -/
def Obligations.FeedHeaderCompletion : Prop :=
  ∀ (s : State) (lvl : Bool) (dur : Duration), s.block.Completes lvl dur → s.block.pstate = .header →
    (s.block.afterPush lvl).cnt.toNat = 32 →
    let h := swap32 ((s.block.afterPush lvl).acc.extractLsb' 0 32)
    let w := (lookup params (h.extractLsb' 16 16)).1
    exec (.feed lvl dur) s = .next
      { s with
        block :=
          { s.block with
            hold := false, acc := 0, cnt := 0, hdr := h, hdrValid := true, payValid := false, varw := BitVec.ofNat 8 w
            pstate := if 0 < w then .payload else .search }
        response := some { status := .ok, event := if 0 < w then .none else .headerOnly, data := 0 } }

/-- 43_frame_parser.md R104: in HEADER before the 32nd bit the parser writes nothing. -/
def Obligations.FeedBeforeHeaderEnd : Prop :=
  ∀ (s : State) (lvl : Bool) (dur : Duration), s.block.Completes lvl dur → s.block.pstate = .header →
    (s.block.afterPush lvl).cnt.toNat ≠ 32 →
    exec (.feed lvl dur) s = .next
      { s with
        block := s.block.afterPush lvl
        response := some { status := .ok, event := .none, data := 0 } }

/-- 43_frame_parser.md R105: payload completion and the pushes before it, where `PAYLOAD_DONE_CLEARS` is
false, the spec's decision D11 (log entry 9). -/
def Obligations.FeedPayloadCompletion : Prop :=
  ∀ (s : State) (lvl : Bool) (dur : Duration), s.block.Completes lvl dur → s.block.pstate = .payload →
    ((s.block.afterPush lvl).cnt.toNat = s.block.varw.toNat + 8 →
      exec (.feed lvl dur) s = .next
        { s with
          block :=
            { s.block.afterPush lvl with
              pay := swap32 ((s.block.afterPush lvl).acc.extractLsb' 0 32), payValid := true, pstate := .search }
          response := some { status := .ok, event := .full, data := 0 } }) ∧
    ((s.block.afterPush lvl).cnt.toNat ≠ s.block.varw.toNat + 8 →
      exec (.feed lvl dur) s = .next
        { s with
          block := s.block.afterPush lvl
          response := some { status := .ok, event := .none, data := 0 } })

/-- 43_frame_parser.md R105: the payload step at every admissible configuration: the completion, where `PAYLOAD_DONE_CLEARS` decides whether
the accumulator is cleared and nothing else, and the pushes before it. -/
def Obligations.PayloadStepUnderBothSettings : Prop :=
  ∀ (p : Params), p.Admissible → ∀ b : Block p, b.pstate = .payload →
    frameStep b =
      if b.cnt.toNat = b.varw.toNat + 8 then
        ({ b with
            pay := swap32 (b.acc.setWidth 32), payValid := true, pstate := .search
            acc := if p.payloadDoneClears then 0 else b.acc
            cnt := if p.payloadDoneClears then 0 else b.cnt }, .full)
      else (b, .none)

/-- 46_operations.md R145: at most one event per command; only a FEED that pushes a bit raises one, only on HEADER to SEARCH (HEADER_ONLY)
and PAYLOAD to SEARCH (FULL), and it does so on each of those. -/
def Obligations.EventsExactlyAtFrameCompletion : Prop :=
  ∀ (i : Instr) (s t : State), exec i s = .next t →
    ∃ r, t.response = some r ∧
      (r.event = .headerOnly ↔
        (s.block.pushedBit i).isSome ∧ s.block.pstate = .header ∧ t.block.pstate = .search) ∧
      (r.event = .full ↔
        (s.block.pushedBit i).isSome ∧ s.block.pstate = .payload ∧ t.block.pstate = .search)

/-- 10_state.md R24: `HDR`, `VARW` and `HDR_VALID` are written only at header completion, `PAY` only at payload completion; `PAY_VALID` is
set at payload completion and cleared at header completion only. -/
def Obligations.ReadingWrittenOnlyAtCompletion : Prop :=
  ∀ (i : Instr) (s t : State), exec i s = .next t →
    let headerDone :=
      s.block.pstate = .header ∧ (s.block.pushedBit i).isSome ∧ s.block.cnt.toNat = 31
    let payloadDone :=
      s.block.pstate = .payload ∧ (s.block.pushedBit i).isSome ∧ (s.block.cnt + 1).toNat = s.block.varw.toNat + 8
    (t.block.hdr ≠ s.block.hdr → headerDone) ∧
    (t.block.varw ≠ s.block.varw → headerDone) ∧
    (t.block.hdrValid ≠ s.block.hdrValid → headerDone) ∧
    (t.block.pay ≠ s.block.pay → payloadDone) ∧
    (s.block.payValid = false → t.block.payValid = true → payloadDone) ∧
    (s.block.payValid = true → t.block.payValid = false → headerDone)

/-- 10_state.md R22: the push and the clear change `acc` and `cnt`, and nothing else does; the clear is the full reset's, the preamble
match's and the header completion's. -/
def Obligations.AccumulatorWrittenOnlyByPushAndClear : Prop :=
  ∀ (i : Instr) (s t : State), exec i s = .next t →
    (t.block.acc = s.block.acc ∧ t.block.cnt = s.block.cnt ∧ s.block.pushedBit i = none) ∨
    (∃ x, s.block.pushedBit i = some x ∧
      t.block.acc = (s.block.pushBit x).acc ∧ t.block.cnt = (s.block.pushBit x).cnt) ∨
    (t.block.acc = 0 ∧ t.block.cnt = 0 ∧
      (t.block = s.block.fullReset ∨
        (s.block.pstate = .search ∧ t.block.pstate = .header) ∨
        (s.block.pstate = .header ∧ t.block.hdrValid = true ∧ s.block.cnt.toNat = 31)))

/-- 43_frame_parser.md R106: `swap32` reverses the bits of each nibble and leaves the nibbles in place. -/
def Obligations.SwapReversesEachNibble : Prop :=
  ∀ (v : Word) (k j : Nat), k < 8 → j < 4 → (swap32 v).getLsbD (4 * k + j) = v.getLsbD (4 * k + 3 - j)

/-- 43_frame_parser.md R107: `swap32` is its own inverse. -/
def Obligations.SwapIsItsOwnInverse : Prop :=
  ∀ v : Word, swap32 (swap32 v) = v

/-- 43_frame_parser.md R108: the row whose code is the key, or `(0, NONE)`; with the document's table, the one row. -/
def Obligations.LookupFindsRow : Prop :=
  (∀ (p : Params), p.Admissible →
    (∀ r ∈ p.sensorTable, lookup p r.code = (r.width, r.kind)) ∧
    ∀ c : BitVec 16, (∀ r ∈ p.sensorTable, r.code ≠ c) → lookup p c = (0, .none)) ∧
  lookup params 0xEC40 = (16, .tempOnly) ∧ ∀ c : BitVec 16, c ≠ 0xEC40 → lookup params c = (0, .none)

/-! ### The field decoder and the checksum -/

/-- 44_field_decoder.md R121: the CHANNEL that READ FIELDS shows, for every value of the nibble, one-hot or not. The slot and READ's frame
are R42 and R142 (the spec's decision D12); that FIELDS shows its formula also while HDR_VALID is 0 is the choice of log entry 11. -/
def Obligations.ReadFieldsShowsChannel : Prop :=
  ∀ s : State, ∃ d : Word,
    exec (.read 0x7) s = .next { s with response := some { status := .ok, event := .none, data := d } } ∧
    let n := (s.block.hdr.extractLsb' 12 4).toNat
    let c := (d.extractLsb' 16 3).toNat
    (n ≤ 1 → c = 1) ∧ (2 ≤ n ∧ n ≤ 3 → c = 2) ∧ (4 ≤ n ∧ n ≤ 7 → c = 3) ∧ (8 ≤ n → c = 4)

/-- 44_field_decoder.md R124: the TENTHS that READ TEMP shows are 100, 10 and 1 times the three digit nibbles of `PAY`, negative exactly when
the sign nibble is not 0, in two's complement; they lie within -1665 and 1665. The slot and READ's frame are R42 and R142 (the spec's decision D12); digits above 9 and
the negative zero are R125 (the spec's decision D18, log entry 12); that TEMP shows its formula also while PAY_VALID is 0 is the choice of
log entry 10. -/
def Obligations.ReadTempShowsTenths : Prop :=
  ∀ s : State, ∃ d : Word,
    exec (.read 0x8) s = .next { s with response := some { status := .ok, event := .none, data := d } } ∧
    let digit := fun k => ((s.block.pay.extractLsb' k 4).toNat : Int)
    (d.extractLsb' 0 16).toInt =
      (if digit 8 = 0 then 1 else -1) * (100 * digit 12 + 10 * digit 16 + digit 20) ∧
    -1665 ≤ (d.extractLsb' 0 16).toInt ∧ (d.extractLsb' 0 16).toInt ≤ 1665

/-- 45_checksum.md R130: the SUM that READ CHECKSUM shows is the sum of all eight nibbles of `HDR` and the five nibbles of `PAY` from bit
12 up (R131, which the spec derives), which is at most 195 (R133, which the spec derives), with its two nibbles swapped; REF is the low byte
of `PAY`; CHK_OK is their equality, where `PAY_VALID` is 1 (R132). The slot and READ's frame are R42 and R142 (the spec's decision D12); that
SUM and REF show the formula also while PAY_VALID is 0 (R135) is the choice of log entry 10. -/
def Obligations.ReadChecksumShowsNibbleSum : Prop :=
  ∀ s : State, ∃ d : Word,
    exec (.read 0x9) s = .next { s with response := some { status := .ok, event := .none, data := d } } ∧
    let sum := ((List.range 8).map fun k => (s.block.hdr.extractLsb' (4 * k) 4).toNat).sum +
      ((List.range 5).map fun k => (s.block.pay.extractLsb' (4 * k + 12) 4).toNat).sum
    sum ≤ 195 ∧
    (d.extractLsb' 0 8).toNat = 16 * (sum % 16) + sum / 16 ∧
    d.extractLsb' 8 8 = s.block.pay.extractLsb' 0 8 ∧
    d.getLsbD 16 = (s.block.payValid && decide (d.extractLsb' 0 8 = d.extractLsb' 8 8))

/-- 44_field_decoder.md R126: where every table row is TEMP_ONLY, TEMP_VALID is PAY_VALID, in every state that keeps the invariant. -/
def Obligations.TempValidIsPayValid : Prop :=
  ∀ (p : Params), p.Admissible → ∀ b : Block p, b.Inv → tempValid b = b.payValid

/-! ### Invariants -/

/-- 10_state.md R29 holds after power-on reset, at every configuration. -/
def Obligations.InvariantHoldsAtReset : Prop :=
  State.reset.Inv ∧ ∀ p : Params, (Block.powerOn p).Inv

/-- 10_state.md R29: every step of the machine keeps the invariant, from every state that has it. -/
def Obligations.StepKeepsInvariant : Prop :=
  ∀ s t : State, s.Inv → step s = .next t → t.Inv

/-- 10_state.md R29 at every admissible configuration, not only the hardware's: any accumulator of 40 bits or more, any count of 6 bits or
more, both masks, both clear settings, any added table rows. -/
def Obligations.EveryConfigurationKeepsInvariant : Prop :=
  ∀ (p : Params), p.Admissible → ∀ (i : Instr) (b : Block p), b.Inv → (b.perform i).1.Inv

/-- 10_state.md R29, from every state that has it: every step of the machine keeps it, at every admissible parameter value of 00_scope.md
R6. -/
def Obligations.StepAtEveryConfigurationKeepsInvariant : Prop :=
  ∀ (p : Params), p.Admissible → ∀ s t : StateAt p, s.block.Inv → s.step = .next t → t.block.Inv

/-- 10_state.md R29 (e): while `PAY_VALID` is 1, `HDR` and `PAY` were captured from the same frame. The numbering of frames that says so is
the model's (log entry 20). -/
def Obligations.HeaderAndPayloadOfSameFrame : Prop :=
  (∀ (p : Params) (n : Nat), Tagged.Inv { block := Block.powerOn p, frame := n, hdrFrame := n, payFrame := n }) ∧
  ∀ (p : Params) (i : Instr) (t : Tagged p), t.Inv → (t.perform i).Inv

/-- 42_bit_accumulator.md R94: where the invariant holds, a capture takes the whole accumulator: it holds fewer than 2^32, and the count
has not passed 32. -/
def Obligations.CaptureTakesWholeAccumulator : Prop :=
  ∀ (p : Params), p.Admissible → ∀ (b : Block p) (x : Bool), b.Inv → b.pstate ≠ .search →
    (b.pushBit x).cnt.toNat ≤ 32 ∧ (b.pushBit x).acc.toNat < 2 ^ (b.pushBit x).cnt.toNat ∧
    (b.pushBit x).accLow.toNat = (b.pushBit x).acc.toNat

/-! ### Whole-machine results -/

/-- 60_exceptions.md R158: a step of one block of a system is that block's step, and leaves every other as it was. -/
def Obligations.InstancesDoNotInterfere : Prop :=
  ∀ (k : Nat) (sys : List State), k < sys.length →
    ∃ sys' s t, stepInstance k sys = .next sys' ∧ sys[k]? = some s ∧ step s = .next t ∧ sys'[k]? = some t ∧
      ∀ j, j ≠ k → sys'[j]? = sys[j]?

/-- 92_eei_decisions.md D5: an accumulator of another width, 40 bits or more, changes nothing but the answer of a READ of ACC_HI. -/
def Obligations.AccumulatorWidthShowsOnlyInAccHi : Prop :=
  ∀ (p : Params) (w : Nat), p.Admissible → 40 ≤ w →
    ∀ (i : Instr) (b : Block p) (c : Block { p with accW := w }), SameButHighAcc b c →
      SameButHighAcc (b.perform i).1 (c.perform i).1 ∧ (i ≠ .read 0x3 → (b.perform i).2 = (c.perform i).2)

/-- 70_reset_and_hazards.md R176: from SEARCH, fewer than 33 pushed bits leave `HDR` and `PAY` as they were, whatever commands push them;
with a count of 0, as after a HEADER_ONLY event, fewer than 19 + 32. -/
def Obligations.ReadingStableForThirtyTwoBits : Prop :=
  ∀ (p : Params), p.Admissible → ∀ (b : Block p) (is : List Instr), b.pstate = .search →
    b.pushCount is < 33 ∨ (b.cnt = 0 ∧ b.pushCount is < 19 + 32) →
    (b.performAll is).1.hdr = b.hdr ∧ (b.performAll is).1.pay = b.pay

/-- 30_encoding.md R62: the two pulses of `bit0` and `bit1`, with any valid duration and either `LEVEL_INVERT`, push that bit and step the
parser, from every block with no half held. -/
def Obligations.BitPulsesPushTheBit : Prop :=
  ∀ (p : Params), p.Admissible → ∀ (b : Block p) (d : Duration) (x : Bool), ValidDuration d → b.hold = false →
    let q := frameStep (({ b with first := !x } : Block p).pushBit x)
    b.performAll (bitPulses p d x) = (q.1, [respond .ok .none 0, respond .ok q.2 0])

/-- The source's preamble property (95_test_vectors.md W3), at every admissible configuration: after a soft reset from any block, the 19
bits of the preamble lead to HEADER with a cleared accumulator, and no event. -/
def Obligations.PreambleAfterResetEntersHeader : Prop :=
  ∀ (p : Params), p.Admissible → ∀ (b : Block p) (d : Duration), ValidDuration d →
    b.fullReset.performAll (bitsPulses p d (preambleBits p)) =
      ({ b.fullReset with pstate := .header }, List.replicate 38 (respond .ok .none 0))

/-- 20_memory.md R45 and 43_frame_parser.md R103: any 32-bit word sent most significant bit first in HEADER is captured, transformed, and
reported at once exactly when its sensor type has no payload. -/
def Obligations.HeaderWordIsCaptured : Prop :=
  ∀ (p : Params), p.Admissible → ∀ (b : Block p) (d : Duration) (raw : Word), ValidDuration d →
    b.pstate = .header → b.hold = false → b.acc = 0 → b.cnt = 0 →
    let r := b.performAll (bitsPulses p d (bitsMsbFirst 32 raw.toNat))
    let w := (lookup p (sensorId (swap32 raw))).1
    r.1.hdr = swap32 raw ∧ r.1.hdrValid = true ∧ r.1.payValid = false ∧ r.1.varw.toNat = w ∧ r.1.pay = b.pay ∧
    r.1.hold = false ∧ r.1.acc = 0 ∧ r.1.cnt = 0 ∧ r.1.pstate = (if 0 < w then .payload else .search) ∧
    r.2 = List.replicate 63 (respond .ok .none 0) ++ [respond .ok (if 0 < w then .none else .headerOnly) 0]

/-- 43_frame_parser.md R105: any payload of the header's width and its checksum byte, sent most significant bit first in PAYLOAD, is
captured, transformed, and reported FULL by its last pulse alone, whatever its checksum. -/
def Obligations.PayloadWordIsCaptured : Prop :=
  ∀ (p : Params), p.Admissible → ∀ (b : Block p) (d : Duration) (raw : Nat), ValidDuration d →
    b.pstate = .payload → b.hold = false → b.acc = 0 → b.cnt = 0 → 1 ≤ b.varw.toNat → b.varw.toNat ≤ 24 →
    raw < 2 ^ (b.varw.toNat + 8) →
    let r := b.performAll (bitsPulses p d (bitsMsbFirst (b.varw.toNat + 8) raw))
    r.1.pay = swap32 (BitVec.ofNat 32 raw) ∧ r.1.payValid = true ∧ r.1.pstate = .search ∧
    r.1.hdr = b.hdr ∧ r.1.varw = b.varw ∧ r.1.hdrValid = b.hdrValid ∧ r.1.hold = false ∧
    r.2 = List.replicate (2 * b.varw.toNat + 15) (respond .ok .none 0) ++ [respond .ok .full 0]

/-- The source's end-to-end scenario (95_test_vectors.md W5) for every frame: after a soft reset from any block, a preamble, a header of a
supported sensor type and a payload of its width give exactly one event, FULL on the last pulse, with both words captured. -/
def Obligations.WholeFrameIsReceived : Prop :=
  ∀ (p : Params), p.Admissible → ∀ (b : Block p) (d : Duration) (rawHdr : Word) (rawPay : Nat), ValidDuration d →
    let w := (lookup p (sensorId (swap32 rawHdr))).1
    0 < w → rawPay < 2 ^ (w + 8) →
    let r := b.fullReset.performAll
      (bitsPulses p d (preambleBits p ++ bitsMsbFirst 32 rawHdr.toNat ++ bitsMsbFirst (w + 8) rawPay))
    r.1.hdr = swap32 rawHdr ∧ r.1.pay = swap32 (BitVec.ofNat 32 rawPay) ∧ r.1.hdrValid = true ∧ r.1.payValid = true ∧
    r.1.varw.toNat = w ∧ r.1.pstate = .search ∧
    r.2 = List.replicate (117 + 2 * w) (respond .ok .none 0) ++ [respond .ok .full 0]
end

