-- ==== Sys2Proof/Laws/State.lean ====
section
/-! SUPPORT. What each update of the state changes and leaves, one lemma per field. -/

namespace Sys2Proof.Machine

variable {p : Params} (b : Block p) (s : State)

section clearAcc
@[simp] theorem Block.clearAcc_hold : b.clearAcc.hold = b.hold := rfl
@[simp] theorem Block.clearAcc_first : b.clearAcc.first = b.first := rfl
@[simp] theorem Block.clearAcc_acc : b.clearAcc.acc = 0 := rfl
@[simp] theorem Block.clearAcc_cnt : b.clearAcc.cnt = 0 := rfl
@[simp] theorem Block.clearAcc_pstate : b.clearAcc.pstate = b.pstate := rfl
@[simp] theorem Block.clearAcc_hdr : b.clearAcc.hdr = b.hdr := rfl
@[simp] theorem Block.clearAcc_pay : b.clearAcc.pay = b.pay := rfl
@[simp] theorem Block.clearAcc_varw : b.clearAcc.varw = b.varw := rfl
@[simp] theorem Block.clearAcc_hdrValid : b.clearAcc.hdrValid = b.hdrValid := rfl
@[simp] theorem Block.clearAcc_payValid : b.clearAcc.payValid = b.payValid := rfl
end clearAcc

section pushBit
variable (x : Bool)
@[simp] theorem Block.pushBit_hold : (b.pushBit x).hold = b.hold := rfl
@[simp] theorem Block.pushBit_first : (b.pushBit x).first = b.first := rfl
@[simp] theorem Block.pushBit_pstate : (b.pushBit x).pstate = b.pstate := rfl
@[simp] theorem Block.pushBit_hdr : (b.pushBit x).hdr = b.hdr := rfl
@[simp] theorem Block.pushBit_pay : (b.pushBit x).pay = b.pay := rfl
@[simp] theorem Block.pushBit_varw : (b.pushBit x).varw = b.varw := rfl
@[simp] theorem Block.pushBit_hdrValid : (b.pushBit x).hdrValid = b.hdrValid := rfl
@[simp] theorem Block.pushBit_payValid : (b.pushBit x).payValid = b.payValid := rfl
end pushBit

section fullReset
@[simp] theorem Block.fullReset_hold : b.fullReset.hold = false := rfl
@[simp] theorem Block.fullReset_first : b.fullReset.first = false := rfl
@[simp] theorem Block.fullReset_acc : b.fullReset.acc = 0 := rfl
@[simp] theorem Block.fullReset_cnt : b.fullReset.cnt = 0 := rfl
@[simp] theorem Block.fullReset_pstate : b.fullReset.pstate = .search := rfl
@[simp] theorem Block.fullReset_hdr : b.fullReset.hdr = b.hdr := rfl
@[simp] theorem Block.fullReset_pay : b.fullReset.pay = b.pay := rfl
@[simp] theorem Block.fullReset_varw : b.fullReset.varw = b.varw := rfl
@[simp] theorem Block.fullReset_hdrValid : b.fullReset.hdrValid = b.hdrValid := rfl
@[simp] theorem Block.fullReset_payValid : b.fullReset.payValid = b.payValid := rfl
end fullReset

section powerOn
@[simp] theorem Block.powerOn_pstate : (Block.powerOn p).pstate = .search := rfl
@[simp] theorem Block.powerOn_hdrValid : (Block.powerOn p).hdrValid = false := rfl
@[simp] theorem Block.powerOn_payValid : (Block.powerOn p).payValid = false := rfl
@[simp] theorem Block.powerOn_varw : (Block.powerOn p).varw = 0 := rfl
end powerOn

section answer
variable (t : StateAt p) (q : Block p × Response) (r : Block params × Response)
@[simp] theorem StateAt.answer_block : (t.answer q).block = q.1 := rfl
@[simp] theorem StateAt.answer_inbox : (t.answer q).inbox = t.inbox := rfl
@[simp] theorem StateAt.answer_response : (t.answer q).response = some q.2 := rfl
@[simp] theorem State.answer_toStateAt : (s.answer r).toStateAt = s.toStateAt.answer r := rfl
end answer

section port
variable (t : StateAt p) (w : Nat)
@[simp] theorem StateAt.reset_block : (StateAt.reset p).block = Block.powerOn p := rfl
@[simp] theorem StateAt.reset_inbox : (StateAt.reset p).inbox = [] := rfl
@[simp] theorem StateAt.reset_response : (StateAt.reset p).response = none := rfl
@[simp] theorem StateAt.powerOn_block : t.powerOn.block = Block.powerOn p := rfl
@[simp] theorem StateAt.powerOn_inbox : t.powerOn.inbox = t.inbox := rfl
@[simp] theorem StateAt.powerOn_response : t.powerOn.response = none := rfl
@[simp] theorem StateAt.idle_block : t.idle.block = t.block := rfl
@[simp] theorem StateAt.idle_inbox : t.idle.inbox = t.inbox := rfl
@[simp] theorem StateAt.idle_response : t.idle.response = none := rfl
@[simp] theorem StateAt.present_block : (t.present w).block = t.block := rfl
@[simp] theorem StateAt.present_inbox : (t.present w).inbox = .command (BitVec.ofNat 40 w) :: t.inbox := rfl
@[simp] theorem StateAt.present_response : (t.present w).response = t.response := rfl
@[simp] theorem State.reset_toStateAt : State.reset.toStateAt = StateAt.reset params := rfl
@[simp] theorem State.powerOn_toStateAt : s.powerOn.toStateAt = s.toStateAt.powerOn := rfl
@[simp] theorem State.idle_toStateAt : s.idle.toStateAt = s.toStateAt.idle := rfl
@[simp] theorem State.present_toStateAt : (s.present w).toStateAt = s.toStateAt.present w := rfl
end port

/-- At the hardware's `DUR_W` the duration operand is the word's field. -/
@[simp] theorem durOperand_params (dur : Duration) : durOperand params dur = dur := BitVec.setWidth_eq dur

end Sys2Proof.Machine
end

