-- ==== Sys2Proof/Laws/Ops.lean ====
section
/-! SUPPORT. What the shared operations can do: the parameters, the sensor-table lookup, the classifier, the assembler and the frame
parser, one statement each, and the meanings in their terms. -/

namespace Sys2Proof.Machine

variable {p : Params}

/-- The hardware's parameters are admissible (00_scope.md R6). -/
theorem params_admissible : params.Admissible where
  longUs := rfl
  shortUs := rfl
  tolUs := rfl
  durW := rfl
  accW := by decide
  cntW := by decide
  preambleLen := rfl
  preamblePat := rfl
  preambleMask := .inl rfl
  hdrBits := rfl
  chkBits := rfl
  documentRow := by decide
  rows := by decide
  distinctCodes := by decide

/-- A lookup either gives a row of the table or fails with `(0, NONE)`. -/
theorem lookup_cases (p : Params) (code : BitVec 16) :
    (∃ r ∈ p.sensorTable, r.code = code ∧ lookup p code = (r.width, r.kind)) ∨
      ((∀ r ∈ p.sensorTable, r.code ≠ code) ∧ lookup p code = (0, .none)) := by
  unfold lookup
  split
  · next r h =>
    exact .inl ⟨r, List.mem_of_find?_eq_some h, by simpa using List.find?_some h, rfl⟩
  · next h => exact .inr ⟨by simpa [List.find?_eq_none] using h, rfl⟩

/-- Every width a lookup gives fits a payload capture (42_bit_accumulator.md R94). -/
theorem lookup_width_le (h : p.Admissible) (code : BitVec 16) : (lookup p code).1 ≤ 24 := by
  obtain ⟨r, hr, -, e⟩ | ⟨-, e⟩ := lookup_cases p code
  · simpa [e] using (h.rows r hr).2.1
  · simp [e]

/-- A code with a payload has the kind TEMP_ONLY (10_state.md R27). -/
theorem lookup_kind (h : p.Admissible) {code : BitVec 16} (hw : 0 < (lookup p code).1) :
    (lookup p code).2 = .tempOnly := by
  obtain ⟨r, hr, -, e⟩ | ⟨-, e⟩ := lookup_cases p code
  · simpa [e] using (h.rows r hr).2.2
  · simp [e] at hw

/-- The strict window of 40_pulse_classifier.md R71, as bounds. -/
theorem inWindow_iff {n : Nat} (d : BitVec n) (centre tol : Nat) :
    inWindow d centre tol = true ↔ centre < d.toNat + tol ∧ d.toNat < centre + tol := by
  simp only [inWindow, decide_eq_true_eq]
  omega

/-- The duration operand's value is the word field's, at every admissible `DUR_W` (00_scope.md R6). -/
theorem durOperand_toNat (h : p.Admissible) (dur : Duration) : (durOperand p dur).toNat = dur.toNat := by
  rw [durOperand, BitVec.toNat_setWidth, h.durW, Nat.mod_eq_of_lt dur.isLt]

/-- The classifier's half-value is the level it was given, whatever the class. -/
theorem classify_half {pl : Bool} {d : BitVec p.durW} {c : PulseClass} {h : Bool} (e : classify p pl d = .valid c h) : h = pl := by
  unfold classify at e
  split at e
  · cases e; rfl
  · split at e
    · cases e; rfl
    · cases e

/-- Everything the assembler can do with one symbol (41_manchester_assembler.md R86). -/
theorem advance_cases (sym : Symbol) (b : Block p) :
    (sym = .invalid ∧ advance sym b = (b.fullReset, none)) ∨
    ∃ c h, sym = .valid c h ∧
      ((b.hold = false ∧ advance sym b = ({ b with first := h, hold := true }, none)) ∨
       (b.hold = true ∧ b.first = !h ∧ advance sym b = ({ b with hold := false }, some h)) ∨
       (b.hold = true ∧ b.first = h ∧ advance sym b = (b.fullReset, none))) := by
  cases sym with
  | invalid => exact .inl ⟨rfl, rfl⟩
  | valid c h =>
    refine .inr ⟨c, h, rfl, ?_⟩
    cases hh : b.hold <;> cases hf : b.first <;> cases h <;> simp [advance, hh, hf]

/-- Everything the parser can do after a push (43_frame_parser.md R111): at most one transition. -/
theorem frameStep_cases (b : Block p) :
    frameStep b = (b, .none) ∨
    (b.pstate = .search ∧ preambleMatches b = true ∧ frameStep b = ({ b.clearAcc with pstate := .header }, .none)) ∨
    (b.pstate = .header ∧ b.cnt.toNat = p.hdrBits ∧
      frameStep b =
        ({ b.clearAcc with
            hdr := swap32 b.accLow, hdrValid := true, payValid := false
            varw := BitVec.ofNat 8 (lookup p (sensorId (swap32 b.accLow))).1
            pstate := if 0 < (lookup p (sensorId (swap32 b.accLow))).1 then .payload else .search },
          if 0 < (lookup p (sensorId (swap32 b.accLow))).1 then .none else .headerOnly)) ∨
    (b.pstate = .payload ∧ b.cnt.toNat = b.varw.toNat + p.chkBits ∧
      frameStep b =
        (if p.payloadDoneClears then
            ({ b with pay := swap32 b.accLow, payValid := true, pstate := .search } : Block p).clearAcc
          else { b with pay := swap32 b.accLow, payValid := true, pstate := .search }, .full)) := by
  unfold frameStep
  cases hp : b.pstate with
  | search =>
    unfold searchStep
    by_cases hm : preambleMatches b = true <;> simp [hm]
  | header =>
    unfold headerStep
    by_cases hc : b.cnt.toNat = p.hdrBits
    · by_cases hw : 0 < (lookup p (sensorId (swap32 b.accLow))).1 <;> simp [hc, hw]
    · simp [hc]
  | payload =>
    unfold payloadStep
    by_cases hc : b.cnt.toNat = b.varw.toNat + p.chkBits <;> simp [hc]

/-- The parser never touches the assembler (10_state.md R21). -/
theorem frameStep_assembler (b : Block p) : (frameStep b).1.hold = b.hold ∧ (frameStep b).1.first = b.first := by
  obtain h | ⟨-, -, h⟩ | ⟨-, -, h⟩ | ⟨-, -, h⟩ := frameStep_cases b
  · simp [h]
  · simp [h]
  · simp [h]
  · rw [h]
    cases p.payloadDoneClears <;> simp

/-- A FEED that pushes no bit answers no event. -/
theorem Block.feed_of_none {b : Block p} {lvl : Bool} {dur : Duration} (h : b.pushedBit (.feed lvl dur) = none) :
    b.feed lvl dur = ((advance (classify p (protocolLevel p lvl) (durOperand p dur)) b).1, respond .ok .none 0) := by
  simp only [Block.pushedBit] at h
  simp [Block.feed, h]

/-- A FEED that pushes a bit steps the parser once. -/
theorem Block.feed_of_some {b : Block p} {lvl : Bool} {dur : Duration} {x : Bool} (h : b.pushedBit (.feed lvl dur) = some x) :
    b.feed lvl dur =
      ((frameStep (({ b with hold := false } : Block p).pushBit x)).1,
        respond .ok (frameStep (({ b with hold := false } : Block p).pushBit x)).2 0) := by
  simp only [Block.pushedBit] at h
  obtain ⟨-, e⟩ | ⟨c, y, -, ⟨-, e⟩ | ⟨-, -, e⟩ | ⟨-, -, e⟩⟩ := advance_cases (classify p (protocolLevel p lvl) (durOperand p dur)) b <;>
    simp_all [Block.feed]

/-- Everything a FEED can do: a full reset, the holding of a first half, or the push of one bit and one step of the parser
(60_exceptions.md R157). -/
theorem Block.feed_cases (b : Block p) (lvl : Bool) (dur : Duration) :
    (b.pushedBit (.feed lvl dur) = none ∧ b.feed lvl dur = (b.fullReset, respond .ok .none 0)) ∨
    (b.pushedBit (.feed lvl dur) = none ∧ b.hold = false ∧
      ∃ h, b.feed lvl dur = ({ b with first := h, hold := true }, respond .ok .none 0)) ∨
    ∃ x, b.pushedBit (.feed lvl dur) = some x ∧
      b.feed lvl dur =
        ((frameStep (({ b with hold := false } : Block p).pushBit x)).1,
          respond .ok (frameStep (({ b with hold := false } : Block p).pushBit x)).2 0) := by
  cases h : b.pushedBit (.feed lvl dur) with
  | some x => exact .inr (.inr ⟨x, rfl, Block.feed_of_some h⟩)
  | none =>
    rw [Block.feed_of_none h]
    simp only [Block.pushedBit] at h
    obtain ⟨-, e⟩ | ⟨c, y, -, ⟨hh, e⟩ | ⟨-, -, e⟩ | ⟨-, -, e⟩⟩ := advance_cases (classify p (protocolLevel p lvl) (durOperand p dur)) b
    · simp [e]
    · simp [e, hh]
    · simp [e] at h
    · simp [e]

/-- A list of commands in two parts. -/
theorem Block.performAll_append (is js : List Instr) (b : Block p) :
    b.performAll (is ++ js) =
      (((b.performAll is).1.performAll js).1, (b.performAll is).2 ++ ((b.performAll is).1.performAll js).2) := by
  induction is generalizing b with
  | nil => simp [Block.performAll]
  | cons i is ih => simp [Block.performAll, ih]

theorem bitsPulses_append (d : Duration) (xs ys : List Bool) :
    bitsPulses p d (xs ++ ys) = bitsPulses p d xs ++ bitsPulses p d ys := by
  simp [bitsPulses]

/-- The binary form of a number, its last bit apart. -/
theorem bitsMsbFirst_succ (k n : Nat) : bitsMsbFirst (k + 1) n = bitsMsbFirst k (n / 2) ++ [n.testBit 0] := by
  induction k with
  | zero => rfl
  | succ k ih =>
    rw [bitsMsbFirst, ih, bitsMsbFirst, Nat.testBit_succ]
    rfl

/-- Everything a step at any parameters can do: it takes the oldest input, and never stops (60_exceptions.md R155). -/
theorem StateAt.step_cases (s : StateAt p) :
    (s.inbox = [] ∧ s.step = .next s.idle) ∨
    (∃ w rest, s.inbox = .powerOn w :: rest ∧ s.step = .next (StateAt.powerOn { s with inbox := rest })) ∨
    ∃ w rest, s.inbox = .command w :: rest ∧
      s.step = .next (StateAt.answer { s with inbox := rest } (s.block.perform (decode w))) := by
  unfold StateAt.step
  split
  · next h => exact .inl ⟨h, rfl⟩
  · next w rest h => exact .inr (.inl ⟨w, rest, h, rfl⟩)
  · next w rest h => exact .inr (.inr ⟨w, rest, h, rfl⟩)

/-- Every meaning is the command on the block, and its response. -/
theorem exec_eq_answer_perform (i : Instr) (s : State) : exec i s = .next (s.answer (s.block.perform i)) := by
  cases i <;> rfl

/-- Everything a step can do, as `StateAt.step_cases`. -/
theorem step_cases (s : State) :
    (s.inbox = [] ∧ step s = .next s.idle) ∨
    (∃ w rest, s.inbox = .powerOn w :: rest ∧ step s = .next (State.powerOn { s with inbox := rest })) ∨
    ∃ w rest, s.inbox = .command w :: rest ∧
      step s = .next (State.answer { s with inbox := rest } (s.block.perform (decode w))) := by
  unfold step
  split
  · next h => exact .inl ⟨h, rfl⟩
  · next w rest h => exact .inr (.inl ⟨w, rest, h, rfl⟩)
  · next w rest h => exact .inr (.inr ⟨w, rest, h, exec_eq_answer_perform _ _⟩)

end Sys2Proof.Machine
end

