-- ==== Sys2Proof/Laws/PerInstr.lean ====
section
/-! SUPPORT. The family RowMatch: the word of a well-formed command matches its own row of spec/opcode_table.json and no other. -/

namespace Sys2Proof

/-- The row of a command; the catch-all row has none. -/
def Instr.row : Instr → Option OpcodeRow
  | .feed _ _ => some feedRow
  | .reset => some resetRow
  | .read _ => some readRow
  | .illegal _ => none

/-- A well-formed command's word matches the rows `r` that are its own, and only those. -/
def Laws.RowMatch.Statement (i : Instr) : Prop :=
  i.wellFormed = true → ∀ r ∈ commandRows, r.matches (encode i) = true ↔ i.row = some r

/-- The top bits of a FEED word. -/
theorem encode_feed_and_mask (lvl : Bool) (dur : Duration) : encode (.feed lvl dur) &&& feedRow.mask = feedRow.pattern := by
  apply BitVec.eq_of_getLsbD_eq
  intro i hi
  simp only [encode, feedRow, BitVec.getLsbD_and, BitVec.getLsbD_append]
  interval_cases i <;> simp

theorem encode_feed_bit39 (lvl : Bool) (dur : Duration) : (encode (.feed lvl dur)).getLsbD 39 = false := by
  simp only [encode, BitVec.getLsbD_append]
  simp

theorem Laws.RowMatch.feed (lvl : Bool) (dur : Duration) : Laws.RowMatch.Statement (.feed lvl dur) := by
  have hneg : ∀ r : OpcodeRow, r.pattern.getLsbD 39 = true → r.matches (encode (.feed lvl dur)) = false := by
    intro r hr
    by_contra h
    simp only [OpcodeRow.matches, Bool.not_eq_false, beq_iff_eq] at h
    have := congrArg (·.getLsbD 39) h
    simp only [BitVec.getLsbD_and, encode_feed_bit39, hr, Bool.false_and] at this
    contradiction
  intro _ r hr
  simp only [commandRows, List.mem_cons, List.not_mem_nil, or_false] at hr
  obtain rfl | rfl | rfl := hr
  · simp [OpcodeRow.matches, encode_feed_and_mask, Instr.row]
  · rw [hneg resetRow (by decide)]
    simp [Instr.row, feedRow, resetRow]
  · rw [hneg readRow (by decide)]
    simp [Instr.row, feedRow, readRow]

theorem Laws.RowMatch.reset : Laws.RowMatch.Statement .reset := by
  unfold Laws.RowMatch.Statement
  decide

theorem Laws.RowMatch.read (addr : SlotAddr) : Laws.RowMatch.Statement (.read addr) := by
  unfold Laws.RowMatch.Statement
  revert addr
  decide

theorem Laws.RowMatch.illegal (word : CommandWord) : Laws.RowMatch.Statement (.illegal word) := by
  intro h r hr
  have := List.all_eq_true.1 h r hr
  simp only [Bool.not_eq_true'] at this
  simp [encode, this, Instr.row]

end Sys2Proof
end

