-- ==== Sys2Proof/Laws/Decode.lean ====
section
/-! SUPPORT. The rows of spec/opcode_table.json as the decoder's conditions on fields, and the decoder's answer in each case. -/

namespace Sys2Proof

/-- Two words are equal when each bit below 40 agrees; the shape in which masks and fields meet. -/
theorem and_mask_eq_iff (w mask pattern : CommandWord) :
    w &&& mask = pattern ↔ ∀ i < 40, (w.getLsbD i && mask.getLsbD i) = pattern.getLsbD i := by
  simp only [← BitVec.getLsbD_and]
  exact ⟨fun h i _ => by rw [h], fun h => BitVec.eq_of_getLsbD_eq h⟩

theorem extractLsb'_eq_iff (w : CommandWord) (start len : Nat) (v : BitVec len) :
    w.extractLsb' start len = v ↔ ∀ i < len, w.getLsbD (start + i) = v.getLsbD i := by
  constructor
  · rintro rfl i hi
    simp [hi]
  · intro h
    refine BitVec.eq_of_getLsbD_eq fun i hi => ?_
    simpa [BitVec.getLsbD_extractLsb', hi] using h i hi

theorem feedRow_matches_iff (w : CommandWord) :
    feedRow.matches w = true ↔ opField w = 0b01 ∧ rsvField w = 0 := by
  simp only [OpcodeRow.matches, beq_iff_eq, and_mask_eq_iff, opField, rsvField, extractLsb'_eq_iff]
  constructor
  · intro h
    refine ⟨fun i hi => ?_, fun i hi => ?_⟩
    · have := h (38 + i) (by omega)
      interval_cases i <;> simpa [feedRow] using this
    · have := h (33 + i) (by omega)
      interval_cases i <;> simpa [feedRow] using this
  · rintro ⟨ho, hr⟩ i hi
    by_cases h1 : 38 ≤ i
    · have := ho (i - 38) (by omega)
      interval_cases i <;> simpa [feedRow] using this
    · by_cases h2 : 33 ≤ i
      · have := hr (i - 33) (by omega)
        interval_cases i <;> simpa [feedRow] using this
      · interval_cases i <;> simp [feedRow]

theorem resetRow_matches_iff (w : CommandWord) :
    resetRow.matches w = true ↔ opField w = 0b10 ∧ w.extractLsb' 0 38 = 0 := by
  simp only [OpcodeRow.matches, beq_iff_eq, and_mask_eq_iff, opField, extractLsb'_eq_iff]
  constructor
  · intro h
    refine ⟨fun i hi => ?_, fun i hi => ?_⟩
    · have := h (38 + i) (by omega)
      interval_cases i <;> simpa [resetRow] using this
    · have := h (0 + i) (by omega)
      interval_cases i <;> simpa [resetRow] using this
  · rintro ⟨ho, hr⟩ i hi
    by_cases h1 : 38 ≤ i
    · have := ho (i - 38) (by omega)
      interval_cases i <;> simpa [resetRow] using this
    · have := hr i (by omega)
      interval_cases i <;> simpa [resetRow] using this

theorem readRow_matches_iff (w : CommandWord) :
    readRow.matches w = true ↔ opField w = 0b11 ∧ w.extractLsb' 4 34 = 0 := by
  simp only [OpcodeRow.matches, beq_iff_eq, and_mask_eq_iff, opField, extractLsb'_eq_iff]
  constructor
  · intro h
    refine ⟨fun i hi => ?_, fun i hi => ?_⟩
    · have := h (38 + i) (by omega)
      interval_cases i <;> simpa [readRow] using this
    · have := h (4 + i) (by omega)
      interval_cases i <;> simpa [readRow] using this
  · rintro ⟨ho, hr⟩ i hi
    by_cases h1 : 38 ≤ i
    · have := ho (i - 38) (by omega)
      interval_cases i <;> simpa [readRow] using this
    · by_cases h2 : 4 ≤ i
      · have := hr (i - 4) (by omega)
        interval_cases i <;> simpa [readRow] using this
      · interval_cases i <;> simp [readRow]

/-- The decoder in terms of the table's rows. -/
theorem decode_eq_by_rows (w : CommandWord) :
    decode w =
      if feedRow.matches w = true then .feed (lvlField w) (durField w)
      else if resetRow.matches w = true then .reset
      else if readRow.matches w = true then .read (addrField w)
      else .illegal w := by
  simp only [decode, feedRow_matches_iff, resetRow_matches_iff, readRow_matches_iff]

/-- No word matches two rows, so the order of the decoder's tests does not matter (30_encoding.md R51). -/
theorem commandRows_disjoint (w : CommandWord) : commandRows.Pairwise fun r q => ¬ (r.matches w = true ∧ q.matches w = true) := by
  simp only [commandRows, List.pairwise_cons, List.mem_cons, List.not_mem_nil, or_false, forall_eq_or_imp, forall_eq,
    feedRow_matches_iff, resetRow_matches_iff, readRow_matches_iff]
  refine ⟨⟨?_, ?_⟩, ?_, ?_, List.Pairwise.nil⟩
  · rintro ⟨⟨h, -⟩, h', -⟩; rw [h] at h'; exact absurd h' (by decide)
  · rintro ⟨⟨h, -⟩, h', -⟩; rw [h] at h'; exact absurd h' (by decide)
  · rintro ⟨⟨h, -⟩, h', -⟩; rw [h] at h'; exact absurd h' (by decide)
  · simp

end Sys2Proof
end

