-- ==== Sys2Proof/Tests/Slice0.lean ====
section
/-! SUPPORT. Tests whose expected values are the spec's own vectors (95_test_vectors.md), and a witness for the hypotheses of each
statement. -/

namespace Sys2Proof.Tests

open Sys2Proof Sys2Proof.Machine

/-! ### Helpers -/

/-- The machine with that block and nothing waiting. -/
def at' (b : Block params) : State := { State.reset with block := b }

/-- The machine after power-on, with those inputs waiting. -/
def waiting (is : List HostInput) : State := { State.reset with inbox := is }

/-- What one command answers, packed (30_encoding.md R57). -/
def answered (i : Instr) (b : Block params) : Nat := (b.perform i).2.pack.toNat

/-- `(hold, first, cnt, acc)`, as 95_test_vectors.md V3 lists them. -/
def quad (b : Block params) : Bool × Bool × Nat × Nat := (b.hold, b.first, b.cnt.toNat, b.acc.toNat)

/-- The block with the first half of a pair held. -/
def held (first : Bool) (b : Block params) : Block params := { b with hold := true, first }

/-- P3's reading (95_test_vectors.md P3). -/
def readP3 : Block params :=
  { Block.powerOn params with hdr := 0xEC402000, pay := 0x005320A2, varw := 16, hdrValid := true, payValid := true }

/-- P5's reading (95_test_vectors.md P5). -/
def readP5 : Block params :=
  { Block.powerOn params with hdr := 0xEC4045A4, pay := 0x00871855, varw := 16, hdrValid := true, payValid := true }

/-- The 18 first bits of the preamble pushed, the first half of the last one held. -/
def nearPreamble : Block params := held false { Block.powerOn params with acc := 0x3FFFA, cnt := 18 }

/-- HEADER with 31 bits of a raw header received, the first half of the last one held. -/
def nearHeader (raw : Nat) : Block params :=
  held (raw % 2 == 0) { Block.powerOn params with pstate := .header, acc := BitVec.ofNat 64 (raw / 2), cnt := 31 }

/-- PAYLOAD with 23 bits of P3's raw payload 0xAC4054 received, the first half of the last one held. -/
def nearPayload : Block params :=
  held true
    { Block.powerOn params with pstate := .payload, acc := 0x56202A, cnt := 23, hdr := 0xEC402000, varw := 16, hdrValid := true }

/-- Every parameter that 00_scope.md R6 leaves to the implementation at another value, and two added sensors. -/
def otherParams : Params where
  longUs := 1000
  shortUs := 500
  tolUs := 200
  durW := 32
  levelInvert := false
  accW := 40
  cntW := 6
  preambleLen := 19
  preamblePat := 0x7FFF5
  preambleMask := 0xFFFFF
  hdrBits := 32
  chkBits := 8
  sensorTable :=
    [{ code := 0x1D20, width := 24, kind := .tempOnly }, SensorRow.document, { code := 0, width := 1, kind := .tempOnly }]
  payloadDoneClears := true

/-- The block that has just entered HEADER. -/
def freshHeader : Block params := { Block.powerOn params with pstate := .header }

/-- The block that has just entered PAYLOAD, at a width of `n` bits. -/
def freshPayload (n : BitVec 8) : Block otherParams := { Block.powerOn otherParams with pstate := .payload, varw := n }

theorem otherParams_admissible : otherParams.Admissible where
  longUs := rfl
  shortUs := rfl
  tolUs := rfl
  durW := rfl
  accW := by decide
  cntW := by decide
  preambleLen := rfl
  preamblePat := rfl
  preambleMask := by decide
  hdrBits := rfl
  chkBits := rfl
  documentRow := by decide
  rows := by decide
  distinctCodes := by decide

/-! ### Well-formedness smoke tests (30_encoding.md R56): no `illegal` may hold a command's word -/

theorem test_illformed_feed_word : (Instr.illegal 0x41000001F4).wellFormed = false := by decide
theorem test_illformed_reset_word : (Instr.illegal 0x8000000000).wellFormed = false := by decide
theorem test_illformed_read_word : (Instr.illegal 0xC000000003).wellFormed = false := by decide
theorem test_wellformed_illegal : (Instr.illegal 0x43000001F4).wellFormed = true := by decide

/-! ### Decoding, with the words written out from 30_encoding.md R51 to R54 -/

/-- R52: OP 01, RSV 00000, LVL, DUR; V1's `feed 1, 500`. -/
theorem test_decode_feed :
    decode 0b01_00000_1_00000000000000000000000111110100 = .feed true 500 ∧
    decode 0b01_00000_0_10000000000000000000000000000001 = .feed false 0x80000001 := by decide
/-- R53: OP 10, all else 0. -/
theorem test_decode_reset : decode 0b10_00000_0_00000000000000000000000000000000 = .reset := by decide
/-- R54: OP 11, ADDR in the low four bits; V1's READ CHECKSUM. -/
theorem test_decode_read : decode 0b11_00000_0_00000000000000000000000000001001 = .read 9 := by decide
/-- V1: a reserved bit set in each format, and OP 00. -/
theorem test_decode_illegal :
    [0x43000001F4, 0x7E000001F4, 0x8000000001, 0x8100000000, 0xC000000010, 0xC100000000, 0x00000001F4, 0xFFFFFFFFFF].all
      (fun w => decode w == .illegal w) = true := by decide
theorem test_decodeTableWord :
    decodeTableWord 40 0xC00000000F = some (.read 15) ∧ decodeTableWord 41 0xC00000000F = none ∧
    decodeTableWord 8 0x100 = none := by decide
theorem test_withFetchWord_runs : step (State.reset.withFetchWord 40 0x41000001F4) = exec (.feed true 500) State.reset := rfl

/-! ### Assembly (R61, R62) -/

/-- P1 and R62: text, a comment, an empty line, a name, hexadecimal, and a pseudo-instruction with a duration. -/
theorem test_assembleText :
    assembleText params "feed 1, 500 ; x\n\nread STATUS\nread 0xF\nreset\nbit1 1000\nglitch".toList =
      .ok [0x41000001F4, 0xC000000000, 0xC00000000F, 0x8000000000, 0x41000003E8, 0x40000003E8, 0x4000000000] := by rfl
/-- R61: an out-of-range operand is an error. -/
theorem test_assembleText_errors :
    assembleText params "feed 2, 500".toList = .error .levelOutOfRange ∧
    assembleText params "feed 0, 4294967296".toList = .error .durationOutOfRange ∧
    assembleText params "read 16".toList = .error .registerOutOfRange := by
  refine ⟨rfl, rfl, rfl⟩
/-- 95_test_vectors.md: PRE. -/
theorem test_preambleBits :
    preambleBits params =
      [true, true, true, true, true, true, true, true, true, true, true, true, true, true, true, false, true, false, true] := by
  decide

/-! ### One step of each command -/

/-- V3, rows 1 and 2: the second half completes a pair: bit 1, bit 0. -/
theorem test_feed_pushes :
    quad ((held false (Block.powerOn params)).perform (.feed false 500)).1 = (false, false, 1, 1) ∧
    quad ((held true (Block.powerOn params)).perform (.feed true 500)).1 = (false, true, 1, 0) := by decide
/-- P3, command 150: FULL, and the capture of PAY. -/
theorem test_feed_full :
    answered (.feed true 500) nearPayload = 0x200000000 ∧ (nearPayload.perform (.feed true 500)).1.pay = 0x005320A2 ∧
    (nearPayload.perform (.feed true 500)).1.cnt = 24 ∧ (nearPayload.perform (.feed true 500)).1.acc = 0xAC4054 := by decide
/-- P8, commands 262 to 264: RESET keeps the reading. -/
theorem test_reset_keeps_reading :
    ((held true readP3).perform .reset).1 = readP3 := by decide
/-- P3, commands 151, 157 to 160: STATUS (without FIRST), VARBITS, FIELDS, TEMP and CHECKSUM. -/
theorem test_read_P3 :
    [0x0, 0x6, 0x7, 0x8, 0x9].map (fun a => answered (.read a) readP3) = [0x30, 0x10, 0x0002EC40, 0x000100EB, 0x0001A2A2] := by
  decide
/-- P5: battery low, a negative temperature, a wrong checksum; and the reserved slots. -/
theorem test_read_P5 :
    [0x7, 0x8, 0x9, 0xA, 0xF].map (fun a => answered (.read a) readP5) = [0x05ABEC40, 0x0001FF4E, 0x00005554, 0, 0] := by decide
/-- V1: the response word of an ILLEGAL word. -/
theorem test_illegal_response :
    answered (.illegal 0x43000001F4) readP3 = 0x400000000 ∧ (readP3.perform (.illegal 0x43000001F4)).1 = readP3 := by decide

/-! ### Units -/

/-- V8 and W4. -/
theorem test_swap32 :
    [0x1D204A30, 0xEC4045A4, 0x00871855, 0x12345678, 0x80000001].map swap32 =
      [0x8B4025C0, 0x73202A52, 0x001E81AA, 0x84C2A6E1, 0x10000008] := by decide
/-- V2. -/
theorem test_classify :
    [300, 301, 699, 700, 800, 801, 1199, 1200].map (classify params (protocolLevel params true)) =
      [.invalid, .shortLow, .shortLow, .invalid, .invalid, .longLow, .longLow, .invalid] := by decide
/-- V5, under the mask 0x7FFFF, and the rows `1` + PRE and `0` + PRE under 0xFFFFF. -/
theorem test_preamble_masks :
    (nearPreamble.perform (.feed false 500)).1.pstate = .header ∧
    (searchStep (p := otherParams) { Block.powerOn otherParams with acc := 0xFFFF5, cnt := 20 }).1.pstate = .search ∧
    (searchStep (p := otherParams) { Block.powerOn otherParams with acc := 0x7FFF5, cnt := 20 }).1.pstate = .header := by decide
/-- V6, rows 1 and 3. -/
theorem test_header_completion :
    ((nearHeader 0x73204000).perform (.feed true 500)).1 =
      { Block.powerOn params with first := true, pstate := .payload, hdr := 0xEC402000, varw := 16, hdrValid := true } ∧
    answered (.feed true 500) (nearHeader 0x8B4025C0) = 0x100000000 := by decide

/-! ### Witnesses: a concrete state and operands that meet the hypotheses of each statement, for each of its clauses -/

theorem witness_PowerOn :
    (waiting [.powerOn none]).inbox = .powerOn none :: [] ∧
    (waiting [.powerOn (some 0x8000000000), .command 0]).inbox = .powerOn (some 0x8000000000) :: [.command 0] := ⟨rfl, rfl⟩

theorem witness_StepRunsDecodedCommand : (waiting [.command 0x41000001F4]).inbox = .command 0x41000001F4 :: [] := rfl

/-- Each clause, at other parameters than the hardware's. -/
theorem witness_MachineAtEveryParameterValue :
    (StateAt.reset otherParams).inbox = [] ∧
    ({ StateAt.reset otherParams with inbox := [.powerOn (some 0x8000000000)] } : StateAt otherParams).inbox =
      .powerOn (some 0x8000000000) :: [] ∧
    ({ StateAt.reset otherParams with inbox := [.command 0x41000001F4] } : StateAt otherParams).inbox =
      .command 0x41000001F4 :: [] := ⟨rfl, rfl, rfl⟩

theorem witness_StepRunsEncodedCommand :
    (Instr.feed true 0xFFFFFFFF).wellFormed = true ∧
    (waiting [.command (encode (.feed true 0xFFFFFFFF))]).inbox = .command (encode (.feed true 0xFFFFFFFF)) :: [] ∧
    (Instr.illegal 0xFFFFFFFFFF).wellFormed = true ∧ Instr.reset.wellFormed = true ∧ (Instr.read 15).wellFormed = true := by
  decide

theorem witness_StepWithoutInputKeepsBlock : (at' readP3).inbox = [] := rfl

theorem witness_StepTakesOldestInputOnly :
    step (waiting [.command 0, .powerOn none]) =
      .next { waiting [.powerOn none] with response := some { status := .illegal, event := .none, data := 0 } } := rfl

/-- Every part of the response differs from its idle value in some run. -/
theorem witness_EveryCommandAnswersOneResponse :
    (readP3.perform (.read 4)).2.data ≠ 0 ∧ (nearPayload.perform (.feed true 500)).2.event ≠ .none ∧
    (readP3.perform (.illegal 0)).2.status = .illegal := by decide

/-- Each clause, at the first or last word of its range. -/
theorem witness_DecodeFollowsOpcodeTable :
    (0x41FFFFFFFF : CommandWord) &&& 0xFE00000000 = 0x4000000000 ∧
    (0xC00000000F : CommandWord) &&& 0xFFFFFFFFF0 = 0xC000000000 ∧
    (0xC000000010 : CommandWord) &&& 0xFE00000000 ≠ 0x4000000000 ∧ (0xC000000010 : CommandWord) ≠ 0x8000000000 ∧
    (0xC000000010 : CommandWord) &&& 0xFFFFFFFFF0 ≠ 0xC000000000 := by decide

theorem witness_AssemblyLinesAssemble :
    (1 < 2 ∧ 4294967295 < 2 ^ 32) ∧ ¬ (2 < 2 ∧ 0 < 2 ^ 32) ∧ ¬ (0 < 2 ∧ 4294967296 < 2 ^ 32) ∧ 15 < 16 ∧ 16 ≤ 16 := by decide

theorem witness_ResetClearsAndKeepsReading : ∃ t, exec .reset (at' (held true readP3)) = .next t := ⟨_, rfl⟩

theorem witness_ReadAnswersRegisterMap :
    params.Admissible ∧ otherParams.Admissible ∧ 0xA ≤ (0xA : SlotAddr).toNat ∧ 0xA ≤ (0xF : SlotAddr).toNat ∧ 31 < 32 :=
  ⟨params_admissible, otherParams_admissible, by decide, by decide, by decide⟩

theorem witness_IllegalWordChangesNothing :
    (0x00000001F4 : CommandWord).extractLsb' 38 2 = 0b00 ∧
    ((0x43000001F4 : CommandWord).extractLsb' 38 2 = 0b01 ∧ (0x43000001F4 : CommandWord).extractLsb' 33 5 ≠ 0) ∧
    ((0x8000000001 : CommandWord).extractLsb' 38 2 = 0b10 ∧ (0x8000000001 : CommandWord).extractLsb' 0 38 ≠ 0) ∧
    ((0xC000000010 : CommandWord).extractLsb' 38 2 = 0b11 ∧ (0xC000000010 : CommandWord).extractLsb' 4 34 ≠ 0) := by decide

/-- The clauses' ranges meet without overlap at these durations. -/
theorem witness_ClassifierWindows :
    params.Admissible ∧ (301 ≤ (699 : Duration).toNat ∧ (699 : Duration).toNat ≤ 699) ∧
    (801 ≤ (1199 : Duration).toNat ∧ (1199 : Duration).toNat ≤ 1199) ∧ (300 : Duration).toNat ≤ 300 ∧
    (700 ≤ (800 : Duration).toNat ∧ (800 : Duration).toNat ≤ 800) ∧ 1200 ≤ (0xFFFFFFFF : Duration).toNat :=
  ⟨params_admissible, by decide⟩

theorem witness_FeedInvalidPulseFullReset :
    [0, 300, 700, 800, 1200, 0xFFFFFFFF].all (fun d => classify params (protocolLevel params false) d == .invalid) = true := by
  decide

theorem witness_FeedFirstHalfIsHeld :
    classify params (protocolLevel params true) 301 = .valid .short false ∧ (at' readP3).block.hold = false := by decide

theorem witness_FeedDesyncFullReset :
    classify params (protocolLevel params true) 1199 = .valid .long false ∧ (at' (held false readP3)).block.hold = true ∧
    (at' (held false readP3)).block.first = false := by decide

theorem witness_FeedTransitionPushesHalfValue :
    classify params (protocolLevel params true) 1199 = .valid .long false ∧ (at' nearPayload).block.hold = true ∧
    (at' nearPayload).block.first ≠ false := by decide

theorem witness_FeedIgnoresPulseClass :
    classify params (protocolLevel params true) 301 = .valid .short false ∧
    classify params (protocolLevel params true) 1199 = .valid .long false := by decide

/-- Each branch is taken somewhere. -/
theorem witness_FeedByLevelAndDuration :
    ¬ ValidDuration 300 ∧ ¬ ValidDuration 700 ∧ ¬ ValidDuration 800 ∧ ¬ ValidDuration 1200 ∧ ValidDuration 301 ∧ ValidDuration 699 ∧
    ValidDuration 801 ∧ ValidDuration 1199 ∧ readP3.hold = false ∧ nearPayload.hold = true ∧ nearPayload.first = true ∧
    nearPayload.first ≠ false := by decide

theorem witness_WrappedCountBlocksPreamble :
    otherParams.Admissible ∧ ({ Block.powerOn otherParams with cnt := 63 } : Block otherParams).cnt.toNat = 2 ^ otherParams.cntW - 1 ∧
    ({ Block.powerOn otherParams with cnt := 17 } : Block otherParams).pstate = .search ∧
    ({ Block.powerOn otherParams with cnt := 17 } : Block otherParams).cnt.toNat < 18 :=
  ⟨otherParams_admissible, by decide⟩

theorem witness_FeedPreambleMatchEntersHeader :
    (at' nearPreamble).block.Completes false 500 ∧ (at' nearPreamble).block.pstate = .search ∧
    19 ≤ ((at' nearPreamble).block.afterPush false).cnt.toNat ∧
    ((at' nearPreamble).block.afterPush false).acc &&& 0x7FFFF = 0x7FFF5 := by decide

/-- With 18 bits, and with 19 bits of another pattern. -/
theorem witness_FeedWithoutMatchStaysInSearch :
    (held false readP3).Completes false 500 ∧ readP3.pstate = .search ∧
    ¬ (19 ≤ ((held false readP3).afterPush false).cnt.toNat ∧ ((held false readP3).afterPush false).acc &&& 0x7FFFF = 0x7FFF5) ∧
    ({ nearPreamble with first := true } : Block params).Completes true 500 ∧
    19 ≤ (nearPreamble.afterPush true).cnt.toNat ∧ ¬ (nearPreamble.afterPush true).acc &&& 0x7FFFF = 0x7FFF5 := by decide

theorem witness_SearchStepUnderBothMasks :
    params.Admissible ∧ otherParams.Admissible ∧ (Block.powerOn otherParams).pstate = .search ∧
    otherParams.preambleMask = 0xFFFFF ∧ params.preambleMask = 0x7FFFF :=
  ⟨params_admissible, otherParams_admissible, rfl, rfl, rfl⟩

/-- A sensor type with a payload, and one without. -/
theorem witness_FeedHeaderCompletion :
    (nearHeader 0x73204000).Completes true 500 ∧ (nearHeader 0x73204000).pstate = .header ∧
    ((nearHeader 0x73204000).afterPush true).cnt.toNat = 32 ∧
    0 < (lookup params ((swap32 (((nearHeader 0x73204000).afterPush true).acc.extractLsb' 0 32)).extractLsb' 16 16)).1 ∧
    (nearHeader 0x8B4025C0).Completes true 500 ∧ ((nearHeader 0x8B4025C0).afterPush true).cnt.toNat = 32 ∧
    (lookup params ((swap32 (((nearHeader 0x8B4025C0).afterPush true).acc.extractLsb' 0 32)).extractLsb' 16 16)).1 = 0 := by decide

/-- One bit before the last. -/
theorem witness_FeedBeforeHeaderEnd :
    ({ nearHeader 0x73204000 with cnt := 30 } : Block params).Completes true 500 ∧ (nearHeader 0x73204000).pstate = .header ∧
    (({ nearHeader 0x73204000 with cnt := 30 } : Block params).afterPush true).cnt.toNat ≠ 32 := by decide

/-- The last bit, and the one before it. -/
theorem witness_FeedPayloadCompletion :
    nearPayload.Completes true 500 ∧ nearPayload.pstate = .payload ∧
    (nearPayload.afterPush true).cnt.toNat = nearPayload.varw.toNat + 8 ∧
    (({ nearPayload with cnt := 22 } : Block params).afterPush true).cnt.toNat ≠ nearPayload.varw.toNat + 8 := by decide

theorem witness_PayloadStepUnderBothSettings :
    params.Admissible ∧ nearPayload.pstate = .payload ∧ params.payloadDoneClears = false ∧ otherParams.Admissible ∧
    otherParams.payloadDoneClears = true :=
  ⟨params_admissible, rfl, rfl, otherParams_admissible, rfl⟩

/-- Both events occur. -/
theorem witness_EventsExactlyAtFrameCompletion :
    (∃ t, exec (.feed true 500) (at' nearPayload) = .next t ∧ t.block.pstate = .search) ∧
    (nearPayload.pushedBit (.feed true 500)).isSome ∧
    (∃ t, exec (.feed true 500) (at' (nearHeader 0x8B4025C0)) = .next t ∧ t.block.pstate = .search) ∧
    ((nearHeader 0x8B4025C0).pushedBit (.feed true 500)).isSome :=
  ⟨⟨_, rfl, rfl⟩, rfl, ⟨_, rfl, rfl⟩, rfl⟩

/-- Each of the elements does change at a completion. -/
theorem witness_ReadingWrittenOnlyAtCompletion :
    ((nearHeader 0x73204000).perform (.feed true 500)).1.hdr ≠ (nearHeader 0x73204000).hdr ∧
    ((nearHeader 0x73204000).perform (.feed true 500)).1.varw ≠ (nearHeader 0x73204000).varw ∧
    ((nearHeader 0x73204000).perform (.feed true 500)).1.hdrValid ≠ (nearHeader 0x73204000).hdrValid ∧
    (nearPayload.perform (.feed true 500)).1.pay ≠ nearPayload.pay ∧
    (nearPayload.perform (.feed true 500)).1.payValid = true ∧ nearPayload.payValid = false ∧
    (({ nearHeader 0x73204000 with payValid := true } : Block params).perform (.feed true 500)).1.payValid = false := by decide

theorem witness_AccumulatorWrittenOnlyByPushAndClear :
    (∃ t, exec .reset (at' nearPayload) = .next t) ∧ (∃ t, exec (.feed true 500) (at' nearPayload) = .next t) :=
  ⟨⟨_, rfl⟩, ⟨_, rfl⟩⟩

theorem witness_SwapReversesEachNibble : 7 < 8 ∧ 3 < 4 := by decide

theorem witness_LookupFindsRow :
    otherParams.Admissible ∧ SensorRow.document ∈ otherParams.sensorTable ∧
    (∀ r ∈ otherParams.sensorTable, r.code ≠ 0xEC41) ∧ (0xEC41 : BitVec 16) ≠ 0xEC40 :=
  ⟨otherParams_admissible, by decide⟩

/-- Every branch of the channel statement, at the values where its ranges meet. -/
theorem witness_ReadFieldsShowsChannel :
    [0x1000, 0x2000, 0x3000, 0x4000, 0x7000, 0x8000].map
      (fun h => (regRead ({ Block.powerOn params with hdr := h } : Block params) 7).extractLsb' 16 3) = [1, 2, 2, 3, 3, 4] := by
  decide

theorem headerState_inv : (nearHeader 0x73204000).Inv where
  headerCount := by decide
  payloadCount := by decide
  accHoldsPushed := by decide
  payNeedsHdr := by decide
  payloadFlags := by decide
  varwLookup := by decide
  varwZero := by decide

theorem payloadState_inv : nearPayload.Inv where
  headerCount := by decide
  payloadCount := by decide
  accHoldsPushed := by decide
  payNeedsHdr := by decide
  payloadFlags := by decide
  varwLookup := by decide
  varwZero := by decide

theorem readState_inv : readP3.Inv where
  headerCount := by decide
  payloadCount := by decide
  accHoldsPushed := by decide
  payNeedsHdr := by decide
  payloadFlags := by decide
  varwLookup := by decide
  varwZero := by decide

theorem witness_TempValidIsPayValid : params.Admissible ∧ readP3.Inv ∧ readP3.payValid = true :=
  ⟨params_admissible, readState_inv, rfl⟩

/-- In PAYLOAD, at the last bit. -/
theorem witness_StepKeepsInvariant :
    ({ at' nearPayload with inbox := [.command 0x41000001F4] } : State).Inv ∧
    ∃ t, step { at' nearPayload with inbox := [.command 0x41000001F4] } = .next t :=
  ⟨payloadState_inv, _, rfl⟩

theorem witness_EveryConfigurationKeepsInvariant : params.Admissible ∧ nearPayload.Inv ∧ (nearHeader 0x73204000).Inv :=
  ⟨params_admissible, payloadState_inv, headerState_inv⟩

/-- A READ in a block with a reading, and one that waits. -/
theorem witness_StepAtEveryConfigurationKeepsInvariant :
    params.Admissible ∧ ({ block := readP3, inbox := [.command 0xC000000009], response := none } : StateAt params).block.Inv ∧
    ∃ t, ({ block := readP3, inbox := [.command 0xC000000009], response := none } : StateAt params).step = .next t :=
  ⟨params_admissible, readState_inv, _, rfl⟩

theorem witness_HeaderAndPayloadOfSameFrame :
    Tagged.Inv { block := nearPayload, frame := 2, hdrFrame := 2, payFrame := 1 } ∧
    Tagged.Inv { block := readP3, frame := 5, hdrFrame := 4, payFrame := 4 } :=
  ⟨{ sameFrame := by decide, payloadFrame := by decide }, { sameFrame := by decide, payloadFrame := by decide }⟩

theorem witness_CaptureTakesWholeAccumulator :
    params.Admissible ∧ nearPayload.Inv ∧ nearPayload.pstate ≠ .search ∧ (nearHeader 0x73204000).Inv ∧
    (nearHeader 0x73204000).pstate ≠ .search :=
  ⟨params_admissible, payloadState_inv, by decide, headerState_inv, by decide⟩

theorem witness_InstancesDoNotInterfere : 1 < [State.reset, at' nearPayload, at' readP3].length ∧ 0 ≠ 1 := by decide

/-- An accumulator of 40 bits beside one of 64, that differ above bit 39. -/
theorem witness_AccumulatorWidthShowsOnlyInAccHi :
    params.Admissible ∧ 40 ≤ 40 ∧
    SameButHighAcc ({ Block.powerOn params with acc := 0x1FFFFFFFFFF } : Block params)
      ({ Block.powerOn { params with accW := 40 } with acc := (0xFFFFFFFFFF : BitVec 40) } : Block { params with accW := 40 }) ∧
    Instr.read 2 ≠ .read 0x3 :=
  ⟨params_admissible, by decide,
    { hold := rfl, first := rfl, acc := by decide, cnt := rfl, pstate := rfl, hdr := rfl, pay := rfl, varw := rfl
      hdrValid := rfl, payValid := rfl },
    by decide⟩

/-- Both premises, with commands that do push. -/
theorem witness_ReadingStableForThirtyTwoBits :
    params.Admissible ∧ ({ readP3 with cnt := 24 } : Block params).pstate = .search ∧
    ({ readP3 with cnt := 24 } : Block params).pushCount (bitPulses params 500 true ++ [.read 4]) = 1 ∧
    readP3.pstate = .search ∧ readP3.cnt = 0 ∧
    readP3.pushCount (bitsPulses params 500 (List.replicate 34 true)) = 34 :=
  ⟨params_admissible, by decide⟩

theorem witness_BitPulsesPushTheBit : otherParams.Admissible ∧ ValidDuration 1199 ∧ (Block.powerOn otherParams).hold = false :=
  ⟨otherParams_admissible, by decide⟩

theorem witness_PreambleAfterResetEntersHeader : otherParams.Admissible ∧ ValidDuration 301 :=
  ⟨otherParams_admissible, by decide⟩

theorem witness_HeaderWordIsCaptured :
    params.Admissible ∧ ValidDuration 500 ∧
    freshHeader.pstate = .header ∧ freshHeader.hold = false ∧ freshHeader.acc = 0 ∧ freshHeader.cnt = 0 :=
  ⟨params_admissible, by decide⟩

/-- The shortest and the longest payload width. -/
theorem witness_PayloadWordIsCaptured :
    otherParams.Admissible ∧ ValidDuration 500 ∧
    (∀ n ∈ [1, 24], (freshPayload n).pstate = .payload ∧ (freshPayload n).hold = false ∧ (freshPayload n).acc = 0 ∧
      (freshPayload n).cnt = 0 ∧ 1 ≤ (freshPayload n).varw.toNat ∧ (freshPayload n).varw.toNat ≤ 24) ∧
    0x1FF < 2 ^ ((freshPayload 1).varw.toNat + 8) ∧ 0xFFFFFFFF < 2 ^ ((freshPayload 24).varw.toNat + 8) :=
  ⟨otherParams_admissible, by decide⟩

/-- P3's frame. -/
theorem witness_WholeFrameIsReceived :
    params.Admissible ∧ ValidDuration 500 ∧ 0 < (lookup params (sensorId (swap32 0x73204000))).1 ∧
    0xAC4054 < 2 ^ ((lookup params (sensorId (swap32 0x73204000))).1 + 8) :=
  ⟨params_admissible, by decide⟩

end Sys2Proof.Tests
end

section
/-! SUPPORT. The machine at every parameter value (00_scope.md R6): its step, one equation per kind of input, and the machine of this
spec as the one at `params`. -/

namespace Sys2Proof.Machine

section StepAt
variable {p : Params} {s : StateAt p} {rest : List HostInput}

theorem StateAt.step_of_nil (h : s.inbox = []) : s.step = .next s.idle := by
  simp only [StateAt.step, h]

theorem StateAt.step_of_powerOn {w : Option CommandWord} (h : s.inbox = .powerOn w :: rest) :
    s.step = .next (StateAt.powerOn { s with inbox := rest }) := by
  simp only [StateAt.step, h]

theorem StateAt.step_of_command {w : CommandWord} (h : s.inbox = .command w :: rest) :
    s.step = .next (StateAt.answer { s with inbox := rest } (s.block.perform (decode w))) := by
  simp only [StateAt.step, h, StateAt.exec]

end StepAt

theorem exec_agrees_with_stateAt_exec (i : Instr) (s : State) :
    ∃ t, s.toStateAt.exec i = .next t ∧ exec i s = .next { toStateAt := t } :=
  ⟨s.toStateAt.answer (s.block.perform i), rfl, exec_eq_answer_perform i s⟩

/-- Both machines take the same input, and what each input does is the same. -/
theorem step_agrees_with_stateAt_step (s : State) :
    ∃ t, s.toStateAt.step = .next t ∧ step s = .next { toStateAt := t } := by
  obtain ⟨h, e⟩ | ⟨w, rest, h, e⟩ | ⟨w, rest, h, e⟩ := step_cases s
  · exact ⟨_, StateAt.step_of_nil h, e⟩
  · exact ⟨_, StateAt.step_of_powerOn h, e⟩
  · exact ⟨_, StateAt.step_of_command h, e⟩

/-- Settles O56: each kind of input by its equation of `StateAt.step`, and this spec's machine by its cases beside them. -/
theorem machineAtEveryParameterValue : Obligations.MachineAtEveryParameterValue := by
  refine ⟨fun p s => ⟨fun h => ?idle, fun rest => ⟨fun w h => ?powerOn, fun w h => ?command⟩⟩,
    fun s => ⟨step_agrees_with_stateAt_step s, fun i => exec_agrees_with_stateAt_exec i s⟩⟩
  case idle => exact StateAt.step_of_nil h
  case powerOn => exact StateAt.step_of_powerOn h
  case command => exact StateAt.step_of_command h

end Sys2Proof.Machine
end

section
/-! SUPPORT. What one command can do to a block (46_operations.md), and what a push does to the accumulator. -/

namespace Sys2Proof.Machine

variable {p : Params} {b : Block p}

/-- Everything a command can do to a block: it moves the assembler alone, it resets it fully, or it pushes one bit and steps the parser
once (46_operations.md R140 to R143). -/
theorem Block.perform_cases (i : Instr) (b : Block p) :
    (b.pushedBit i = none ∧ (b.perform i).2.event = .none ∧
      ((∃ h f, (b.perform i).1 = { b with hold := h, first := f }) ∨ (b.perform i).1 = b.fullReset)) ∨
    ∃ x, b.pushedBit i = some x ∧
      (b.perform i).1 = (frameStep (({ b with hold := false } : Block p).pushBit x)).1 ∧
      (b.perform i).2.event = (frameStep (({ b with hold := false } : Block p).pushBit x)).2 := by
  cases i with
  | feed lvl dur =>
    simp only [Block.perform]
    obtain ⟨hn, e⟩ | ⟨hn, -, f, e⟩ | ⟨x, hx, e⟩ := b.feed_cases lvl dur
    · exact .inl ⟨hn, by rw [e]; rfl, .inr (by rw [e])⟩
    · exact .inl ⟨hn, by rw [e]; rfl, .inl ⟨true, f, by rw [e]⟩⟩
    · exact .inr ⟨x, hx, by rw [e], by rw [e]; rfl⟩
  | reset => exact .inl ⟨rfl, rfl, .inr rfl⟩
  | read addr => exact .inl ⟨rfl, rfl, .inl ⟨b.hold, b.first, rfl⟩⟩
  | illegal w => exact .inl ⟨rfl, rfl, .inl ⟨b.hold, b.first, rfl⟩⟩

theorem exec_next_block {i : Instr} {s t : State} (h : exec i s = .next t) : t.block = (s.block.perform i).1 := by
  rw [exec_eq_answer_perform] at h
  cases h
  rfl

/-- A parser that stays where it is has not reached the end of its stage. -/
theorem count_ne_of_frameStep_eq_self (h : frameStep b = (b, .none)) :
    (b.pstate = .header → b.cnt.toNat ≠ p.hdrBits) ∧
      (b.pstate = .payload → b.cnt.toNat ≠ b.varw.toNat + p.chkBits) := by
  refine ⟨fun hp hc => ?_, fun hp hc => ?_⟩
  · have hs := congrArg (·.1.pstate) h
    simp only [frameStep, hp, headerStep, hc, if_true] at hs
    split at hs <;> cases hs
  · have he := congrArg (·.2) h
    simp [frameStep, hp, payloadStep, hc] at he

@[simp] theorem Block.pushBit_cnt (b : Block p) (x : Bool) : (b.pushBit x).cnt = b.cnt + 1 := rfl

/-- The count after a push, where it does not wrap (42_bit_accumulator.md R93). -/
theorem Block.pushBit_cnt_toNat (x : Bool) (h : b.cnt.toNat + 1 < 2 ^ p.cntW) :
    (b.pushBit x).cnt.toNat = b.cnt.toNat + 1 := by
  have hone : (1 : BitVec p.cntW).toNat = 1 := (BitVec.toNat_ofNat 1 p.cntW).trans (Nat.mod_eq_of_lt (by omega))
  rw [Block.pushBit_cnt, BitVec.toNat_add, hone, Nat.mod_eq_of_lt h]

/-- A push makes the accumulator at most one bit longer. -/
theorem Block.pushBit_acc_lt {n : Nat} (x : Bool) (h : b.acc.toNat < 2 ^ n) : (b.pushBit x).acc.toNat < 2 ^ (n + 1) := by
  simp only [Block.pushBit, BitVec.toNat_or, BitVec.toNat_shiftLeft, BitVec.toNat_setWidth]
  refine Nat.or_lt_two_pow ?shifted ?bit
  case shifted =>
    refine (Nat.mod_le _ _).trans_lt ?_
    rw [Nat.shiftLeft_eq, pow_one, pow_succ]
    omega
  case bit =>
    exact (Nat.mod_le _ _).trans_lt ((BitVec.ofBool x).isLt.trans_le (Nat.pow_le_pow_right two_pos (by omega)))

end Sys2Proof.Machine
end

section
/-! SUPPORT. The invariant of 10_state.md R29 (b) to (g): after power-on reset, under every command and under every step. -/

namespace Sys2Proof.Machine

variable {p : Params} {b c : Block p}

/-- The invariant after power-on reset: every clause but (g) is about a flag or a stage that is not set. -/
theorem Block.Inv.powerOn (p : Params) : (Block.powerOn p).Inv := by
  constructor <;> simp

/-- The invariant does not speak of the assembler. -/
theorem Block.Inv.with_assembler (h : b.Inv) (hold first : Bool) : ({ b with hold, first } : Block p).Inv :=
  { h with }

/-- In SEARCH the invariant is about the reading alone. -/
theorem Block.Inv.of_search (hp : c.pstate = .search)
    (payNeedsHdr : c.payValid = true → c.hdrValid = true ∧ 1 ≤ c.varw.toNat)
    (varwLookup : c.hdrValid = true → c.varw.toNat = (lookup p (sensorId c.hdr)).1)
    (varwZero : c.hdrValid = false → c.varw = 0) : c.Inv where
  headerCount := by simp [hp]
  payloadCount := by simp [hp]
  accHoldsPushed := by simp [hp]
  payNeedsHdr := payNeedsHdr
  payloadFlags := by simp [hp]
  varwLookup := varwLookup
  varwZero := varwZero

theorem Block.Inv.fullReset (h : b.Inv) : b.fullReset.Inv :=
  .of_search rfl h.payNeedsHdr h.varwLookup h.varwZero

/-- A preamble match clears the accumulator and keeps the reading. -/
theorem Block.Inv.enter_header (h : b.Inv) : ({ b.clearAcc with pstate := .header } : Block p).Inv where
  headerCount := by simp
  payloadCount := by simp
  accHoldsPushed := by simp
  payNeedsHdr := h.payNeedsHdr
  payloadFlags := by simp
  varwLookup := h.varwLookup
  varwZero := h.varwZero

/-- A header completion sets all that the invariant speaks of, whatever was before it (43_frame_parser.md R103). -/
theorem Block.Inv.of_header_completion (hA : p.Admissible) (b : Block p) (v : Word) :
    Block.Inv
      { b.clearAcc with
        hdr := v, hdrValid := true, payValid := false
        varw := BitVec.ofNat 8 (lookup p (sensorId v)).1
        pstate := if 0 < (lookup p (sensorId v)).1 then .payload else .search } := by
  have hle := lookup_width_le hA (sensorId v)
  have hwidth : (BitVec.ofNat 8 (lookup p (sensorId v)).1).toNat = (lookup p (sensorId v)).1 := by
    rw [BitVec.toNat_ofNat, Nat.mod_eq_of_lt (by omega)]
  by_cases hw : 0 < (lookup p (sensorId v)).1
  · simp only [hw, if_true]
    exact
      { headerCount := by simp
        payloadCount := fun _ => ⟨hwidth.symm ▸ hw, hwidth.symm ▸ hle, by simp⟩
        accHoldsPushed := fun _ => by simp
        payNeedsHdr := by simp
        payloadFlags := fun _ => ⟨rfl, rfl⟩
        varwLookup := fun _ => hwidth
        varwZero := by simp }
  · simp only [hw, if_false]
    exact .of_search rfl (by simp) (fun _ => hwidth) (by simp)

/-- A payload completion keeps the header's part of the reading (43_frame_parser.md R105). -/
theorem Block.Inv.payload_completion (h : b.Inv) (hp : b.pstate = .payload) (hs : c.pstate = .search)
    (hhdr : c.hdr = b.hdr) (hvarw : c.varw = b.varw) (hvalid : c.hdrValid = b.hdrValid) : c.Inv := by
  refine .of_search hs (fun _ => ?_) ?_ ?_
  · rw [hvalid, hvarw]
    exact ⟨(h.payloadFlags hp).1, (h.payloadCount hp).1⟩
  · rw [hvalid, hvarw, hhdr]
    exact h.varwLookup
  · rw [hvalid, hvarw]
    exact h.varwZero

/-- Outside SEARCH the count is within its stage (R29 (b), (c)), so that no push wraps it. -/
theorem Block.Inv.count_le (h : b.Inv) (hs : b.pstate ≠ .search) : b.cnt.toNat ≤ 31 := by
  cases hp : b.pstate with
  | search => exact absurd hp hs
  | header => exact h.headerCount hp
  | payload =>
    obtain ⟨-, hw, hc⟩ := h.payloadCount hp
    omega

theorem Block.Inv.pushBit_cnt_toNat (hA : p.Admissible) (h : b.Inv) (hs : b.pstate ≠ .search) (x : Bool) :
    (b.pushBit x).cnt.toNat = b.cnt.toNat + 1 := by
  have hle := h.count_le hs
  have hpow : 2 ^ 6 ≤ 2 ^ p.cntW := Nat.pow_le_pow_right (by decide) hA.cntW
  exact Block.pushBit_cnt_toNat x (by omega)

/-- A push that ends no stage. -/
theorem Block.Inv.pushBit_stays (hA : p.Admissible) (h : b.Inv) {x : Bool}
    (e : frameStep (b.pushBit x) = (b.pushBit x, .none)) : (b.pushBit x).Inv := by
  obtain ⟨hheader, hpayload⟩ := count_ne_of_frameStep_eq_self e
  rw [hA.hdrBits] at hheader
  rw [hA.chkBits] at hpayload
  refine { headerCount := fun hp => ?_, payloadCount := fun hp => ?_, accHoldsPushed := fun hp => ?_
           payNeedsHdr := h.payNeedsHdr, payloadFlags := h.payloadFlags
           varwLookup := h.varwLookup, varwZero := h.varwZero }
  · have hc := h.pushBit_cnt_toNat hA (x := x) (by simp [show b.pstate = .header from hp])
    have := h.headerCount hp
    have := hheader hp
    omega
  · have hc := h.pushBit_cnt_toNat hA (x := x) (by simp [show b.pstate = .payload from hp])
    have := h.payloadCount hp
    have := hpayload hp
    simp only [Block.pushBit_varw] at this ⊢
    omega
  · rw [h.pushBit_cnt_toNat hA (x := x) (by rintro hs; simp [hs] at hp)]
    exact Block.pushBit_acc_lt x (h.accHoldsPushed hp)

/-- One step of the parser on a pushed block (43_frame_parser.md R100). -/
theorem Block.Inv.frameStep_pushBit (hA : p.Admissible) (h : b.Inv) (x : Bool) : (frameStep (b.pushBit x)).1.Inv := by
  obtain e | ⟨hp, -, e⟩ | ⟨hp, -, e⟩ | ⟨hp, -, e⟩ := frameStep_cases (b.pushBit x)
  · rw [e]
    exact h.pushBit_stays hA e
  · rw [e]
    exact h.enter_header
  · rw [e]
    exact .of_header_completion hA _ _
  · rw [e]
    split <;> exact h.payload_completion hp rfl rfl rfl rfl

/-- Settles O45: the assembler's moves and the full reset keep the invariant, and a push with its step of the parser does. -/
theorem everyConfigurationKeepsInvariant : Obligations.EveryConfigurationKeepsInvariant := by
  intro p hA i b h
  obtain ⟨-, -, ⟨hold, first, e⟩ | e⟩ | ⟨x, -, e, -⟩ := b.perform_cases i
  · rw [e]
    exact h.with_assembler hold first
  · rw [e]
    exact h.fullReset
  · rw [e]
    exact (h.with_assembler false b.first).frameStep_pushBit hA x

/-- Settles O57: an idle step keeps the block, power-on reset sets one with the invariant, and a command is O45's. -/
theorem stepAtEveryConfigurationKeepsInvariant : Obligations.StepAtEveryConfigurationKeepsInvariant := by
  intro p hA s t h hstep
  obtain ⟨-, e⟩ | ⟨w, rest, -, e⟩ | ⟨w, rest, -, e⟩ := s.step_cases <;> (rw [e] at hstep; cases hstep)
  · exact h
  · exact .powerOn p
  · exact everyConfigurationKeepsInvariant p hA (decode w) s.block h

/-- Settles O44: the hardware's step is the step at `params`, which O57 speaks of. -/
theorem stepKeepsInvariant : Obligations.StepKeepsInvariant := by
  intro s t h hstep
  obtain ⟨u, hu, e⟩ := step_agrees_with_stateAt_step s
  rw [e] at hstep
  cases hstep
  exact stepAtEveryConfigurationKeepsInvariant params params_admissible s.toStateAt u h hu

/-- Settles O43: the hardware's reset block is the power-on block of `params`. -/
theorem invariantHoldsAtReset : Obligations.InvariantHoldsAtReset := ⟨Block.Inv.powerOn params, Block.Inv.powerOn⟩

/-- Settles O1, by the definition of the power-on block. -/
theorem powerOnSetsEveryElement : Obligations.PowerOnSetsEveryElement := ⟨rfl, fun _ => rfl⟩

end Sys2Proof.Machine
end

section
/-! SUPPORT. The frames that `HDR` and `PAY` were captured from (10_state.md R29 (e)): what a command does to their numbers. -/

namespace Sys2Proof.Machine

variable {p : Params}

section Tagged
variable {i : Instr} {t : Tagged p}

/-- A command that ends no stage but by a full reset. -/
theorem Tagged.perform_of_no_transition (he : (t.block.perform i).2.event = .none)
    (hs : (t.block.perform i).1.pstate = t.block.pstate ∨ (t.block.perform i).1.pstate = .search) :
    t.perform i = { t with block := (t.block.perform i).1 } := by
  obtain hs | hs := hs <;> cases hp : t.block.pstate <;> simp [Tagged.perform, he, hs, hp]

theorem Tagged.perform_of_preamble (he : (t.block.perform i).2.event = .none) (hp : t.block.pstate = .search)
    (hs : (t.block.perform i).1.pstate = .header) :
    t.perform i = { t with block := (t.block.perform i).1, frame := t.frame + 1 } := by
  simp [Tagged.perform, he, hs, hp]

theorem Tagged.perform_of_header_completion (hp : t.block.pstate = .header)
    (hs : (t.block.perform i).1.pstate = .payload ∧ (t.block.perform i).2.event = .none ∨
      (t.block.perform i).2.event = .headerOnly) :
    t.perform i = { t with block := (t.block.perform i).1, hdrFrame := t.frame } := by
  obtain ⟨hs, he⟩ | he := hs
  · simp [Tagged.perform, he, hs, hp]
  · simp [Tagged.perform, he, hp]

theorem Tagged.perform_of_payload_completion (he : (t.block.perform i).2.event = .full) (hp : t.block.pstate = .payload) :
    t.perform i = { t with block := (t.block.perform i).1, payFrame := t.frame } := by
  simp [Tagged.perform, he, hp]

end Tagged

/-- Settles O46: at reset the two numbers are one; of the commands, a header completion takes `PAY_VALID` away, and a payload completion
captures `PAY` from the frame being received, which in PAYLOAD is that of `HDR`. -/
theorem headerAndPayloadOfSameFrame : Obligations.HeaderAndPayloadOfSameFrame := by
  refine ⟨fun p n => ⟨fun _ => rfl, fun _ => rfl⟩, fun p i t h => ?_⟩
  obtain ⟨hsame, hframe⟩ := h
  obtain ⟨-, he, ⟨hold, first, e⟩ | e⟩ | ⟨x, -, e, he⟩ := t.block.perform_cases i
  · rw [Tagged.perform_of_no_transition he (by simp [e]), e]
    exact ⟨hsame, hframe⟩
  · rw [Tagged.perform_of_no_transition he (by simp [e]), e]
    exact ⟨hsame, by simp⟩
  · obtain f | ⟨hp, -, f⟩ | ⟨hp, -, f⟩ | ⟨hp, -, f⟩ :=
        frameStep_cases (({ t.block with hold := false } : Block p).pushBit x) <;> rw [f] at e he
    case inl =>
      rw [Tagged.perform_of_no_transition he (by simp [e]), e]
      exact ⟨hsame, hframe⟩
    case inr.inl =>
      rw [Tagged.perform_of_preamble he hp (by rw [e]), e]
      exact ⟨hsame, by simp⟩
    case inr.inr.inl =>
      rw [Tagged.perform_of_header_completion hp (by rw [e, he]; dsimp only; split <;> simp), e]
      exact ⟨by simp, fun _ => rfl⟩
    case inr.inr.inr =>
      rw [Tagged.perform_of_payload_completion he hp, e]
      exact ⟨fun _ => hframe hp, by split <;> simp⟩

end Sys2Proof.Machine
end

section
/-! SUPPORT. Which commands write the reading (10_state.md R24) and the accumulator (R22). -/

namespace Sys2Proof.Machine

variable {p : Params}

/-- What a command can do to the reading (10_state.md R24): it leaves it, or it completes the header, or it completes the payload. -/
theorem Block.perform_reading_cases (i : Instr) (b : Block p) :
    ((b.perform i).1.hdr = b.hdr ∧ (b.perform i).1.varw = b.varw ∧ (b.perform i).1.hdrValid = b.hdrValid ∧
      (b.perform i).1.pay = b.pay ∧ (b.perform i).1.payValid = b.payValid) ∨
    (b.pstate = .header ∧ (b.pushedBit i).isSome ∧ (b.cnt + 1).toNat = p.hdrBits ∧
      (b.perform i).1.pay = b.pay ∧ (b.perform i).1.payValid = false) ∨
    (b.pstate = .payload ∧ (b.pushedBit i).isSome ∧ (b.cnt + 1).toNat = b.varw.toNat + p.chkBits ∧
      (b.perform i).1.hdr = b.hdr ∧ (b.perform i).1.varw = b.varw ∧ (b.perform i).1.hdrValid = b.hdrValid ∧
      (b.perform i).1.payValid = true) := by
  obtain ⟨-, -, ⟨hold, first, e⟩ | e⟩ | ⟨x, hx, e, -⟩ := b.perform_cases i
  · simp [e]
  · simp [e]
  · obtain f | ⟨-, -, f⟩ | ⟨hp, hc, f⟩ | ⟨hp, hc, f⟩ :=
        frameStep_cases (({ b with hold := false } : Block p).pushBit x) <;> rw [e, f]
    · exact .inl ⟨rfl, rfl, rfl, rfl, rfl⟩
    · exact .inl ⟨rfl, rfl, rfl, rfl, rfl⟩
    · exact .inr (.inl ⟨hp, by simp [hx], hc, rfl, rfl⟩)
    · refine .inr (.inr ⟨hp, by simp [hx], hc, ?_⟩)
      split <;> exact ⟨rfl, rfl, rfl, rfl⟩

/-- The hardware's count before the last header bit. -/
theorem count_before_header_end {n : BitVec params.cntW} (h : (n + 1).toNat = params.hdrBits) : n.toNat = 31 := by
  bv_omega

/-- Settles O34: each of the three things a command can do to the reading, and the writes that are not its own do not happen. -/
theorem readingWrittenOnlyAtCompletion : Obligations.ReadingWrittenOnlyAtCompletion := by
  intro i s t h headerDone payloadDone
  rw [exec_next_block h]
  obtain ⟨hhdr, hvarw, hvalid, hpay, hpv⟩ | ⟨hp, hx, hc, hpay, hpv⟩ | ⟨hp, hx, hc, hhdr, hvarw, hvalid, hpv⟩ :=
    s.block.perform_reading_cases i
  case inl => cases hb : s.block.payValid <;> simp [hhdr, hvarw, hvalid, hpay, hpv, hb]
  case inr.inl =>
    have hdone : headerDone := ⟨hp, hx, count_before_header_end hc⟩
    simp [hdone, hpay, hpv]
  case inr.inr =>
    have hdone : payloadDone := ⟨hp, hx, hc⟩
    simp [hdone, hhdr, hvarw, hvalid, hpv]

/-- Settles O35: of the parser's transitions only the preamble match and the header completion clear, since the hardware keeps the
accumulator at a payload completion (log entry 9). -/
theorem accumulatorWrittenOnlyByPushAndClear : Obligations.AccumulatorWrittenOnlyByPushAndClear := by
  intro i s t h
  rw [exec_next_block h]
  obtain ⟨hn, -, ⟨hold, first, e⟩ | e⟩ | ⟨x, hx, e, -⟩ := s.block.perform_cases i
  · rw [e]
    exact .inl ⟨rfl, rfl, hn⟩
  · rw [e]
    exact .inr (.inr ⟨rfl, rfl, .inl rfl⟩)
  · obtain f | ⟨hp, -, f⟩ | ⟨hp, hc, f⟩ | ⟨-, -, f⟩ :=
        frameStep_cases (({ s.block with hold := false } : Block params).pushBit x) <;> rw [e, f]
    · exact .inr (.inl ⟨x, hx, rfl, rfl⟩)
    · exact .inr (.inr ⟨rfl, rfl, .inr (.inl ⟨hp, rfl⟩)⟩)
    · exact .inr (.inr ⟨rfl, rfl, .inr (.inr ⟨hp, rfl, count_before_header_end hc⟩)⟩)
    · exact .inr (.inl ⟨x, hx, rfl, rfl⟩)

end Sys2Proof.Machine
end

section
/-! SUPPORT. The inputs that a step leaves waiting (20_memory.md R48). -/

namespace Sys2Proof.Machine

/-- Settles O7: an idle step leaves the list empty, and every other step drops its head. -/
theorem stepTakesOldestInputOnly : Obligations.StepTakesOldestInputOnly := by
  intro s t h
  obtain ⟨hs, e⟩ | ⟨w, rest, hs, e⟩ | ⟨w, rest, hs, e⟩ := step_cases s <;> (rw [e] at h; cases h) <;> simp [hs]

end Sys2Proof.Machine
end

section
/-! SUPPORT. READ (46_operations.md R142): the slots of the register window, field by field (20_memory.md R42, R43). -/

namespace Sys2Proof.Machine

variable {p : Params} (b : Block p)

/-- READ's word (30_encoding.md R54). -/
theorem encode_read_fields (a : SlotAddr) :
    (encode (.read a)).extractLsb' 38 2 = 0b11 ∧ (encode (.read a)).extractLsb' 4 34 = 0 ∧ (encode (.read a)).extractLsb' 0 4 = a := by
  revert a
  decide

theorem statusSlot_fields :
    (statusSlot b).extractLsb' 0 2 = b.pstate.code ∧ (statusSlot b).getLsbD 2 = b.hold ∧ (statusSlot b).getLsbD 3 = b.first ∧
      (statusSlot b).getLsbD 4 = b.hdrValid ∧ (statusSlot b).getLsbD 5 = b.payValid ∧ (statusSlot b).extractLsb' 6 26 = 0 := by
  simp only [statusSlot, BitVec.getLsbD_append, BitVec.extractLsb'_append_eq_of_le, BitVec.extractLsb'_append_eq_right,
    Nat.reduceLeDiff, Nat.reduceSub]
  simp

theorem fieldsSlot_fields :
    (fieldsSlot b).extractLsb' 0 16 = sensorId b.hdr ∧
      (fieldsSlot b).extractLsb' 16 3 = BitVec.ofNat 3 (channelOf (channelNibble b.hdr)) ∧
      (fieldsSlot b).getLsbD 19 = batteryLow b.hdr ∧ (fieldsSlot b).extractLsb' 20 8 = rollingCode b.hdr ∧
      (fieldsSlot b).extractLsb' 28 4 = 0 := by
  simp only [fieldsSlot, BitVec.getLsbD_append, BitVec.extractLsb'_append_eq_of_le, BitVec.extractLsb'_append_eq_right,
    Nat.reduceLeDiff, Nat.reduceSub]
  simp

theorem tempSlot_fields :
    (tempSlot b).extractLsb' 0 16 = BitVec.ofInt 16 (tempTenths b.pay) ∧ (tempSlot b).getLsbD 16 = tempValid b ∧
      (tempSlot b).extractLsb' 17 15 = 0 := by
  simp only [tempSlot, BitVec.getLsbD_append, BitVec.extractLsb'_append_eq_of_le, BitVec.extractLsb'_append_eq_right,
    Nat.reduceLeDiff, Nat.reduceSub]
  simp

theorem checksumSlot_fields :
    (checksumSlot b).extractLsb' 0 8 = (checksum b.hdr b.pay).1 ∧ (checksumSlot b).extractLsb' 8 8 = checksumByte b.pay ∧
      (checksumSlot b).getLsbD 16 = chkOk b ∧ (checksumSlot b).extractLsb' 17 15 = 0 := by
  simp only [checksumSlot, BitVec.getLsbD_append, BitVec.extractLsb'_append_eq_of_le, BitVec.extractLsb'_append_eq_right,
    Nat.reduceLeDiff, Nat.reduceSub]
  simp [checksum]

theorem nibble_le (v : Word) (k : Nat) : nibble v k ≤ 15 := by
  rw [nibble, BitVec.toNat_and]
  exact Nat.and_le_right

theorem channelOf_lt (n : BitVec 4) : channelOf n < 8 := by
  revert n
  decide

/-- The tenths' magnitude has three digits of at most 15 (44_field_decoder.md R125). -/
theorem natAbs_tempTenths_le (pay : Word) : (tempTenths pay).natAbs ≤ 1665 := by
  have h1 := nibble_le (pay >>> 8) 1
  have h2 := nibble_le (pay >>> 8) 2
  have h3 := nibble_le (pay >>> 8) 3
  simp only [tempTenths]
  split <;> omega

/-- TENTHS reads back: it fits 16 bits. -/
theorem toInt_ofInt_tempTenths (pay : Word) : (BitVec.ofInt 16 (tempTenths pay)).toInt = tempTenths pay := by
  have := natAbs_tempTenths_le pay
  exact BitVec.toInt_ofInt_eq_self (by decide) (by omega) (by omega)

section regRead
theorem regRead_status : regRead b 0x0 = statusSlot b := rfl
theorem regRead_count : regRead b 0x1 = b.cnt.setWidth 32 := rfl
theorem regRead_accLo : regRead b 0x2 = b.acc.setWidth 32 := rfl
theorem regRead_accHi : regRead b 0x3 = (b.acc >>> 32).setWidth 32 := rfl
theorem regRead_header : regRead b 0x4 = b.hdr := rfl
theorem regRead_payload : regRead b 0x5 = b.pay := rfl
theorem regRead_varbits : regRead b 0x6 = b.varw.setWidth 32 := rfl
theorem regRead_fields : regRead b 0x7 = fieldsSlot b := rfl
theorem regRead_temp : regRead b 0x8 = tempSlot b := rfl
theorem regRead_checksum : regRead b 0x9 = checksumSlot b := rfl

theorem regRead_reserved {a : SlotAddr} (h : 0xA ≤ a.toNat) : regRead b a = 0 := by
  unfold regRead
  split
  case h_11 => rfl
  all_goals omega

end regRead

/-- Settles O15: each slot by its fields; the other slots are the registers themselves, or 0. -/
theorem readAnswersRegisterMap : Obligations.ReadAnswersRegisterMap := by
  refine ⟨encode_read_fields, fun s a => exec_eq_answer_perform (.read a) s, fun p _ b =>
    ⟨?status, ?count, ?accLo, ?accHi, regRead_header b, regRead_payload b, ?varbits, ?fields, ?temp, ?checksum,
      fun a ha => regRead_reserved b ha⟩⟩
  case status =>
    obtain ⟨hcode, hrest⟩ := statusSlot_fields b
    refine ⟨?_, hrest⟩
    rw [regRead_status, hcode]
    cases b.pstate <;> rfl
  case count =>
    intro i hi
    rw [regRead_count]
    simp [hi]
  case accLo =>
    intro i hi
    rw [regRead_accLo]
    simp [hi]
  case accHi =>
    intro i hi
    rw [regRead_accHi]
    simp [hi]
  case varbits =>
    rw [regRead_varbits]
    refine ⟨BitVec.eq_of_getLsbD_eq fun i hi => ?_, BitVec.eq_of_getLsbD_eq fun i hi => ?_⟩
    · simp [hi, show i < 32 by omega]
    · simp
  case fields =>
    obtain ⟨hid, hchannel, hbattery, hrolling, hreserved⟩ := fieldsSlot_fields b
    refine ⟨hid, ?_, hbattery, hrolling, hreserved⟩
    rw [regRead_fields, hchannel, BitVec.toNat_ofNat]
    exact Nat.mod_eq_of_lt (channelOf_lt _)
  case temp =>
    obtain ⟨htenths, hvalid, hreserved⟩ := tempSlot_fields b
    refine ⟨?_, hvalid, hreserved⟩
    rw [regRead_temp, htenths, toInt_ofInt_tempTenths]
  case checksum =>
    rw [regRead_checksum]
    exact checksumSlot_fields b

end Sys2Proof.Machine
end

section
/-! SUPPORT. A word sent as the pulses of its bits (30_encoding.md R62): one bit, the bits before the end of a stage, and the bit that
ends it (43_frame_parser.md R103, R105). -/

namespace Sys2Proof.Machine

variable {p : Params} {b : Block p} {d : Duration}

/-- A pulse of a valid duration is classified by its level. -/
theorem classify_of_validDuration (hA : p.Admissible) (hd : ValidDuration d) (pl : Bool) :
    ∃ c, classify p pl (durOperand p d) = .valid c pl := by
  have hlong := inWindow_iff (durOperand p d) p.longUs p.tolUs
  have hshort := inWindow_iff (durOperand p d) p.shortUs p.tolUs
  rw [durOperand_toNat hA, hA.longUs, hA.tolUs] at hlong
  rw [durOperand_toNat hA, hA.shortUs, hA.tolUs] at hshort
  unfold classify
  rw [hA.longUs, hA.shortUs, hA.tolUs]
  obtain hd | hd := hd
  · rw [if_neg (by rw [hlong]; omega), if_pos (hshort.2 (by omega))]
    exact ⟨_, rfl⟩
  · rw [if_pos (hlong.2 (by omega))]
    exact ⟨_, rfl⟩

theorem Block.perform_first_half (hA : p.Admissible) (hd : ValidDuration d) (hh : b.hold = false) (x : Bool) :
    b.perform (.feed (x ^^ p.levelInvert) d) = ({ b with first := x, hold := true }, respond .ok .none 0) := by
  obtain ⟨c, e⟩ := classify_of_validDuration hA hd x
  simp [Block.perform, Block.feed, protocolLevel, e, advance, hh]

theorem Block.perform_second_half (hA : p.Admissible) (hd : ValidDuration d) (hh : b.hold = true) {x : Bool} (hf : b.first = !x) :
    b.perform (.feed (x ^^ p.levelInvert) d) =
      ((frameStep (({ b with hold := false } : Block p).pushBit x)).1,
        respond .ok (frameStep (({ b with hold := false } : Block p).pushBit x)).2 0) := by
  obtain ⟨c, e⟩ := classify_of_validDuration hA hd x
  simp [Block.perform, Block.feed, protocolLevel, e, advance, hh, hf]

/-- The two pulses of a bit push it, and step the parser once. -/
theorem Block.performAll_bitPulses (hA : p.Admissible) (hd : ValidDuration d) (hh : b.hold = false) (x : Bool) :
    b.performAll (bitPulses p d x) =
      ((frameStep (({ b with first := !x } : Block p).pushBit x)).1,
        [respond .ok .none 0, respond .ok (frameStep (({ b with first := !x } : Block p).pushBit x)).2 0]) := by
  simp only [bitPulses, Block.performAll]
  rw [Block.perform_first_half hA hd hh, Block.perform_second_half hA hd rfl rfl, ← hh]

/-- The block with the `k` bits of `n` in a cleared accumulator, the last half-bit held being `first`. -/
def Block.received (first : Bool) (k n : Nat) (b : Block p) : Block p :=
  { b with first, acc := BitVec.ofNat p.accW n, cnt := BitVec.ofNat p.cntW k }

section received
variable (first : Bool) (k n : Nat)
@[simp] theorem Block.received_hold : (b.received first k n).hold = b.hold := rfl
@[simp] theorem Block.received_pstate : (b.received first k n).pstate = b.pstate := rfl
@[simp] theorem Block.received_hdr : (b.received first k n).hdr = b.hdr := rfl
@[simp] theorem Block.received_pay : (b.received first k n).pay = b.pay := rfl
@[simp] theorem Block.received_varw : (b.received first k n).varw = b.varw := rfl
@[simp] theorem Block.received_hdrValid : (b.received first k n).hdrValid = b.hdrValid := rfl
@[simp] theorem Block.received_payValid : (b.received first k n).payValid = b.payValid := rfl

/-- The count does not wrap within a stage (42_bit_accumulator.md R93). -/
theorem Block.received_cnt_toNat (hA : p.Admissible) {k : Nat} (hk : k ≤ 32) : (b.received first k n).cnt.toNat = k := by
  have hpow : 2 ^ 6 ≤ 2 ^ p.cntW := Nat.pow_le_pow_right (by decide) hA.cntW
  exact (BitVec.toNat_ofNat k p.cntW).trans (Nat.mod_eq_of_lt (by omega))

/-- What a capture takes of the bits received (42_bit_accumulator.md R94). -/
theorem Block.received_accLow (hA : p.Admissible) : (b.received first k n).accLow = BitVec.ofNat 32 n :=
  BitVec.setWidth_ofNat_of_le (by have := hA.accW; omega) n

/-- A push shifts the last bit of a number in behind the others (42_bit_accumulator.md R90). -/
theorem ofNat_half_shiftLeft_or_bit (w n : Nat) :
    BitVec.ofNat w (n / 2) <<< 1 ||| (BitVec.ofBool (n.testBit 0)).setWidth w = BitVec.ofNat w n := by
  refine BitVec.eq_of_getLsbD_eq fun i hi => ?_
  rw [BitVec.getLsbD_or, BitVec.getLsbD_shiftLeft, BitVec.getLsbD_setWidth, BitVec.getLsbD_ofBool]
  simp only [BitVec.getLsbD_ofNat]
  cases i with
  | zero => simp [hi]
  | succ i => simp [hi, Nat.testBit_succ, show i < w by omega]

theorem Block.pushBit_received (f : Bool) :
    ({ b.received f k (n / 2) with first } : Block p).pushBit (n.testBit 0) = b.received first (k + 1) n := by
  simp only [Block.pushBit, Block.received, ofNat_half_shiftLeft_or_bit, BitVec.ofNat_add]
  rfl

end received

/-- A cleared block has received no bit. -/
theorem Block.received_zero (ha : b.acc = 0) (hc : b.cnt = 0) : b.received b.first 0 0 = b := by
  cases b
  simp_all [Block.received]

theorem bitsPulses_last (d : Duration) (k n : Nat) :
    bitsPulses p d (bitsMsbFirst (k + 1) n) = bitsPulses p d (bitsMsbFirst k (n / 2)) ++ bitPulses p d (n.testBit 0) := by
  rw [bitsMsbFirst_succ, bitsPulses_append]
  simp [bitsPulses]

/-- The two pulses of one bit more. -/
theorem Block.performAll_next_bit (hA : p.Admissible) (hd : ValidDuration d) (hh : b.hold = false) (f : Bool) (k n : Nat) :
    (b.received f k (n / 2)).performAll (bitPulses p d (n.testBit 0)) =
      ((frameStep (b.received (!n.testBit 0) (k + 1) n)).1,
        [respond .ok .none 0, respond .ok (frameStep (b.received (!n.testBit 0) (k + 1) n)).2 0]) := by
  rw [Block.performAll_bitPulses (b := b.received f k (n / 2)) hA hd hh, Block.pushBit_received]

/-- Counts below `len` end nothing in the stage that `b` is in. -/
def Block.StaysBefore (len : Nat) (b : Block p) : Prop :=
  ∀ first k n, k < len → frameStep (b.received first k n) = (b.received first k n, .none)

section receive
variable {len : Nat} (hA : p.Admissible) (hd : ValidDuration d) (hh : b.hold = false) (ha : b.acc = 0) (hc : b.cnt = 0)
  (hs : b.StaysBefore len)
include hA hd hh ha hc hs

/-- Bits sent most significant first before the end of a stage are received, and nothing is reported. -/
theorem Block.performAll_before_end {k n : Nat} (hk : k < len) (hn : n < 2 ^ k) :
    ∃ first, b.performAll (bitsPulses p d (bitsMsbFirst k n)) =
      (b.received first k n, List.replicate (2 * k) (respond .ok .none 0)) := by
  induction k generalizing n with
  | zero =>
    obtain rfl : n = 0 := by omega
    exact ⟨b.first, by rw [Block.received_zero ha hc]; rfl⟩
  | succ k ih =>
    obtain ⟨f, e⟩ := ih (n := n / 2) (by omega) (by omega)
    refine ⟨!n.testBit 0, ?_⟩
    rw [bitsPulses_last, Block.performAll_append, e, Block.performAll_next_bit hA hd hh, hs _ _ _ hk, Nat.mul_succ,
      List.replicate_add]
    rfl

/-- A whole stage: the last pulse alone lets the parser leave it. -/
theorem Block.performAll_whole_stage {k n : Nat} (hk : k < len) (hn : n < 2 ^ (k + 1)) :
    ∃ first, b.performAll (bitsPulses p d (bitsMsbFirst (k + 1) n)) =
      ((frameStep (b.received first (k + 1) n)).1,
        List.replicate (2 * k + 1) (respond .ok .none 0) ++ [respond .ok (frameStep (b.received first (k + 1) n)).2 0]) := by
  obtain ⟨f, e⟩ := Block.performAll_before_end hA hd hh ha hc hs hk (n := n / 2) (by omega)
  refine ⟨!n.testBit 0, ?_⟩
  rw [bitsPulses_last, Block.performAll_append, e, Block.performAll_next_bit hA hd hh]
  simp [List.replicate_succ']

end receive

theorem Block.header_staysBefore (hA : p.Admissible) (hp : b.pstate = .header) : b.StaysBefore 32 := by
  intro first k n hk
  have hne : k ≠ p.hdrBits := by rw [hA.hdrBits]; omega
  simp [frameStep, hp, headerStep, Block.received_cnt_toNat first n hA hk.le, hne]

theorem Block.payload_staysBefore (hA : p.Admissible) (hp : b.pstate = .payload) (hw : b.varw.toNat ≤ 24) :
    b.StaysBefore (b.varw.toNat + 8) := by
  intro first k n hk
  have hne : k ≠ b.varw.toNat + p.chkBits := by rw [hA.chkBits]; omega
  simp [frameStep, hp, payloadStep, Block.received_cnt_toNat first n hA (k := k) (by omega), hne]

/-- HEADER completion on the 32 bits of a word (43_frame_parser.md R103), for either kind of sensor type. -/
theorem Block.frameStep_received_header (hA : p.Admissible) (hp : b.pstate = .header) (first : Bool) (raw : Word) :
    let w := (lookup p (sensorId (swap32 raw))).1
    frameStep (b.received first 32 raw.toNat) =
      ({ b with
          first, acc := 0, cnt := 0, hdr := swap32 raw, hdrValid := true, payValid := false, varw := BitVec.ofNat 8 w
          pstate := if 0 < w then .payload else .search },
        if 0 < w then .none else .headerOnly) := by
  have hc : (b.received first 32 raw.toNat).cnt.toNat = p.hdrBits :=
    (Block.received_cnt_toNat first _ hA le_rfl).trans hA.hdrBits.symm
  have hlow : (b.received first 32 raw.toNat).accLow = raw := by simp [Block.received_accLow first 32 _ hA]
  simp only [frameStep, Block.received_pstate, hp, headerStep, hc, if_true, hlow]
  split <;> rfl

/-- PAYLOAD completion on the bits of a payload (43_frame_parser.md R105), under either setting of `PAYLOAD_DONE_CLEARS`. -/
theorem Block.frameStep_received_payload (hA : p.Admissible) (hp : b.pstate = .payload) (hw : b.varw.toNat ≤ 24) (first : Bool)
    (raw : Nat) :
    frameStep (b.received first (b.varw.toNat + 8) raw) =
      ({ b with
          first, pay := swap32 (BitVec.ofNat 32 raw), payValid := true, pstate := .search
          acc := if p.payloadDoneClears then 0 else BitVec.ofNat p.accW raw
          cnt := if p.payloadDoneClears then 0 else BitVec.ofNat p.cntW (b.varw.toNat + 8) }, .full) := by
  have hc : (b.received first (b.varw.toNat + 8) raw).cnt.toNat = b.varw.toNat + p.chkBits := by
    rw [Block.received_cnt_toNat first raw hA (by omega), hA.chkBits]
  simp only [frameStep, Block.received_pstate, hp, payloadStep, Block.received_varw, hc, if_true, Block.received_accLow first _ raw hA]
  split <;> rfl

/-- Settles O53: the 32 bits are a whole HEADER stage, and the parser's step on the last one is the header completion. -/
theorem headerWordIsCaptured : Obligations.HeaderWordIsCaptured := by
  intro p hA b d raw hd hp hh ha hc r w
  obtain ⟨first, e⟩ := Block.performAll_whole_stage hA hd hh ha hc (Block.header_staysBefore hA hp) (k := 31) (by decide) raw.isLt
  rw [Block.frameStep_received_header hA hp] at e
  have hw : (BitVec.ofNat 8 w).toNat = w :=
    (BitVec.toNat_ofNat w 8).trans (Nat.mod_eq_of_lt ((lookup_width_le hA _).trans_lt (by decide)))
  rw [show r = _ from e]
  exact ⟨rfl, rfl, rfl, hw, rfl, hh, rfl, rfl, rfl, rfl⟩

/-- Settles O54: the bits are a whole PAYLOAD stage, and the parser's step on the last one is the payload completion. -/
theorem payloadWordIsCaptured : Obligations.PayloadWordIsCaptured := by
  intro p hA b d raw hd hp hh ha hc _ hw hraw r
  obtain ⟨first, e⟩ := Block.performAll_whole_stage hA hd hh ha hc (Block.payload_staysBefore hA hp hw) (Nat.lt_succ_self _) hraw
  rw [Block.frameStep_received_payload hA hp hw] at e
  rw [show r = _ from e]
  exact ⟨rfl, rfl, rfl, rfl, rfl, rfl, hh, rfl⟩

end Sys2Proof.Machine
end

section
/-! SUPPORT. The decoder and the encoder (30_encoding.md R51 to R56): what a word of each row of spec/opcode_table.json decodes to, the
fields and the value of an encoded word, and the word put together from its fields. -/

namespace Sys2Proof

section Decode
variable {w : CommandWord}

theorem decode_of_feedRow (h : feedRow.matches w = true) : decode w = .feed (lvlField w) (durField w) := by
  rw [decode_eq_by_rows, if_pos h]

theorem decode_of_resetRow (h : resetRow.matches w = true) : decode w = .reset := by
  obtain ⟨hfeed, -⟩ := List.pairwise_cons.1 (commandRows_disjoint w)
  rw [decode_eq_by_rows, if_neg fun hf => hfeed resetRow (by simp) ⟨hf, h⟩, if_pos h]

theorem decode_of_readRow (h : readRow.matches w = true) : decode w = .read (addrField w) := by
  obtain ⟨hfeed, hrest⟩ := List.pairwise_cons.1 (commandRows_disjoint w)
  obtain ⟨hreset, -⟩ := List.pairwise_cons.1 hrest
  rw [decode_eq_by_rows, if_neg fun hf => hfeed readRow (by simp) ⟨hf, h⟩, if_neg fun hr => hreset readRow (by simp) ⟨hr, h⟩,
    if_pos h]

theorem wellFormed_illegal_iff :
    (Instr.illegal w).wellFormed = true ↔
      ¬ feedRow.matches w = true ∧ ¬ resetRow.matches w = true ∧ ¬ readRow.matches w = true := by
  simp [Instr.wellFormed, commandRows]

theorem decode_of_wellFormed_illegal (h : (Instr.illegal w).wellFormed = true) : decode w = .illegal w := by
  obtain ⟨hfeed, hreset, hread⟩ := wellFormed_illegal_iff.1 h
  rw [decode_eq_by_rows, if_neg hfeed, if_neg hreset, if_neg hread]

/-- The row of RESET has no operand bits: its mask is all ones. -/
theorem resetRow_matches_iff_eq : resetRow.matches w = true ↔ w = 0x8000000000 := by
  rw [OpcodeRow.matches, beq_iff_eq, show resetRow.mask = BitVec.allOnes 40 by decide, BitVec.and_allOnes]
  rfl

/-- The rows of the table leave no word out (30_encoding.md R56). -/
theorem matches_or_wellFormed_illegal (w : CommandWord) :
    feedRow.matches w = true ∨ resetRow.matches w = true ∨ readRow.matches w = true ∨ (Instr.illegal w).wellFormed = true := by
  rw [wellFormed_illegal_iff]
  tauto

end Decode

section Encode
variable {w : CommandWord}

/-- `Laws.RowMatch` at a command's own row. -/
theorem encode_matches_row {i : Instr} {r : OpcodeRow} (h : i.row = some r) : r.matches (encode i) = true := by
  cases i with
  | feed lvl dur =>
    cases h
    exact (Laws.RowMatch.feed lvl dur rfl feedRow (by decide)).2 rfl
  | reset =>
    cases h
    exact (Laws.RowMatch.reset rfl resetRow (by decide)).2 rfl
  | read addr =>
    cases h
    exact (Laws.RowMatch.read addr rfl readRow (by decide)).2 rfl
  | illegal w => cases h

@[simp] theorem lvlField_encode_feed (lvl : Bool) (dur : Duration) : lvlField (encode (.feed lvl dur)) = lvl := by
  simp only [lvlField, encode, BitVec.getLsbD_append]
  simp

@[simp] theorem durField_encode_feed (lvl : Bool) (dur : Duration) : durField (encode (.feed lvl dur)) = dur :=
  BitVec.extractLsb'_append_eq_right

@[simp] theorem addrField_encode_read (addr : SlotAddr) : addrField (encode (.read addr)) = addr :=
  BitVec.extractLsb'_append_eq_right

theorem encode_feed_toNat (lvl : Bool) (dur : Duration) :
    (encode (.feed lvl dur)).toNat = 0x4000000000 + lvl.toNat * 2 ^ 32 + dur.toNat := by
  rw [encode, BitVec.toNat_append, ← Nat.shiftLeft_add_eq_or_of_lt dur.isLt]
  cases lvl <;> simp [Nat.shiftLeft_eq]

theorem encode_read_toNat (addr : SlotAddr) : (encode (.read addr)).toNat = 0xC000000000 + addr.toNat := by
  revert addr
  decide

/-- The one-bit field `LVL` as a slice, the form in which it joins its neighbours. -/
theorem ofBool_lvlField (w : CommandWord) : BitVec.ofBool (lvlField w) = w.extractLsb' 32 1 := by
  refine BitVec.eq_of_getLsbD_eq fun i hi => ?_
  obtain rfl : i = 0 := by omega
  simp [lvlField]

/-- A FEED word is its four fields (30_encoding.md R51, R52). -/
theorem encode_feed_of_feedRow (h : feedRow.matches w = true) : encode (.feed (lvlField w) (durField w)) = w := by
  obtain ⟨hop, hrsv⟩ := (feedRow_matches_iff w).1 h
  calc encode (.feed (lvlField w) (durField w))
      = (opField w ++ rsvField w ++ BitVec.ofBool (lvlField w) ++ durField w : BitVec 40) := by rw [hop, hrsv]; rfl
    _ = w := by
      rw [ofBool_lvlField, opField, rsvField, durField,
        BitVec.extractLsb'_append_extractLsb'_eq_extractLsb' (show 38 = 33 + 5 from rfl),
        BitVec.extractLsb'_append_extractLsb'_eq_extractLsb' (show 33 = 32 + 1 from rfl)]
      exact BitVec.extractLsb'_append_extractLsb'

/-- A READ word is its opcode, 34 reserved bits and its address (30_encoding.md R54). -/
theorem encode_read_of_readRow (h : readRow.matches w = true) : encode (.read (addrField w)) = w := by
  obtain ⟨hop, hrsv⟩ := (readRow_matches_iff w).1 h
  calc encode (.read (addrField w))
      = (opField w ++ w.extractLsb' 4 34 ++ addrField w : BitVec 40) := by rw [hop, hrsv]; rfl
    _ = w := by
      rw [opField, addrField, BitVec.extractLsb'_append_extractLsb'_eq_extractLsb' (show 38 = 4 + 34 from rfl)]
      exact BitVec.extractLsb'_append_extractLsb'

end Encode

/-- Settles O10: the word matches its command's row, and the row's operand fields read back. -/
theorem decodeOfEncode : Obligations.DecodeOfEncode := by
  intro i hi
  cases i with
  | feed lvl dur => rw [decode_of_feedRow (encode_matches_row rfl), lvlField_encode_feed, durField_encode_feed]
  | reset => exact decode_of_resetRow (encode_matches_row rfl)
  | read addr => rw [decode_of_readRow (encode_matches_row rfl), addrField_encode_read]
  | illegal w => exact decode_of_wellFormed_illegal hi

/-- Settles O9: the masks are those of the rows, and each row has its decoding. -/
theorem decodeFollowsOpcodeTable : Obligations.DecodeFollowsOpcodeTable := by
  refine fun w => ⟨fun h => ?feed, fun h => ?reset, fun h => ?read, fun hfeed hreset hread => ?illegal⟩
  case feed =>
    rw [decode_of_feedRow (beq_iff_eq.2 h), BitVec.setWidth_eq_extractLsb' (by decide)]
    rfl
  case reset => exact decode_of_resetRow (resetRow_matches_iff_eq.2 h)
  case read =>
    rw [decode_of_readRow (beq_iff_eq.2 h), BitVec.setWidth_eq_extractLsb' (by decide)]
    rfl
  case illegal =>
    exact decode_of_wellFormed_illegal (wellFormed_illegal_iff.2
      ⟨fun h => hfeed (beq_iff_eq.1 h), fun h => hreset (resetRow_matches_iff_eq.1 h), fun h => hread (beq_iff_eq.1 h)⟩)

/-- Settles O11: a word that matches a row is put together from its fields, and an illegal one is kept whole. -/
theorem encodeOfDecode : Obligations.EncodeOfDecode := by
  intro w
  obtain h | h | h | h := matches_or_wellFormed_illegal w
  · rw [decode_of_feedRow h]
    exact ⟨encode_feed_of_feedRow h, rfl⟩
  · rw [decode_of_resetRow h]
    exact ⟨(resetRow_matches_iff_eq.1 h).symm, rfl⟩
  · rw [decode_of_readRow h]
    exact ⟨encode_read_of_readRow h, rfl⟩
  · rw [decode_of_wellFormed_illegal h]
    exact ⟨rfl, h⟩

end Sys2Proof
end

section
/-! SUPPORT. A step on a command word (30_encoding.md R50): the machine runs the command the word decodes to. -/

namespace Sys2Proof.Machine

/-- Settles O3: the branch of `step` for a command word. -/
theorem stepRunsDecodedCommand : Obligations.StepRunsDecodedCommand := by
  intro s w rest h
  simp only [step, h]

theorem State.withFetchWord_encode (s : State) (i : Instr) :
    s.withFetchWord 40 (encode i).toNat = { s with inbox := .command (encode i) :: s.inbox } := by
  rw [State.withFetchWord, Nat.mod_eq_of_lt (encode i).isLt, State.present, StateAt.present, BitVec.ofNat_toNat, BitVec.setWidth_eq]

/-- Settles O4: O3 at the word of the command, which O10 decodes. -/
theorem stepRunsEncodedCommand : Obligations.StepRunsEncodedCommand := by
  intro i hi
  have hstep (s : State) (rest : List HostInput) (h : s.inbox = .command (encode i) :: rest) :
      step s = exec i { s with inbox := rest } := by
    rw [stepRunsDecodedCommand s _ rest h, decodeOfEncode i hi]
  refine ⟨hstep, fun s => ?_⟩
  rw [s.withFetchWord_encode i]
  exact hstep _ s.inbox rfl

end Sys2Proof.Machine
end

section
/-! SUPPORT. The response of a command (30_encoding.md R57): what each command may answer, and the fields of the packed word. -/

namespace Sys2Proof.Machine

variable {p : Params}

/-- A FEED answers OK and no data; only its event depends on the block. -/
theorem Block.feed_response (b : Block p) (lvl : Bool) (dur : Duration) : ∃ e, (b.feed lvl dur).2 = respond .ok e 0 := by
  obtain ⟨-, h⟩ | ⟨-, -, _, h⟩ | ⟨x, -, h⟩ := b.feed_cases lvl dur <;> exact ⟨_, by rw [h]⟩

theorem Response.pack_status (r : Response) : r.pack.getLsbD 34 = decide (r.status = .illegal) := by
  simp only [Response.pack, BitVec.getLsbD_append]
  cases r.status <;> simp [Status.code]

theorem Response.pack_event (r : Response) : r.pack.extractLsb' 32 2 = r.event.code := by
  rw [Response.pack, BitVec.extractLsb'_append_eq_of_le (by decide)]
  exact BitVec.extractLsb'_append_eq_right

theorem Response.pack_data (r : Response) : r.pack.extractLsb' 0 32 = r.data := BitVec.extractLsb'_append_eq_right

/-- Settles O8: the response of each command, and the three fields of its packing. -/
theorem everyCommandAnswersOneResponse : Obligations.EveryCommandAnswersOneResponse := by
  refine ⟨fun i s => ⟨_, _, exec_eq_answer_perform i s, rfl, ?_⟩, fun r => ⟨r.pack_status, ?_, r.pack_data⟩⟩
  · cases i with
    | feed lvl dur =>
      obtain ⟨e, h⟩ := s.block.feed_response lvl dur
      simp [Block.perform, h, respond]
    | reset => simp [Block.perform, Block.reset, respond]
    | read addr => simp [Block.perform, Block.read, respond]
    | illegal w => simp [Block.perform, Block.illegal, respond]
  · rw [r.pack_event]
    cases r.event <;> rfl

end Sys2Proof.Machine
end

section
/-! SUPPORT. Assembly lines (30_encoding.md R61, R62): the command of a line that assembles, and the error of one that does not. -/

namespace Sys2Proof.Machine

theorem asmDuration_of_lt {d : Nat} (h : d < 2 ^ 32) : asmDuration d = .ok (BitVec.ofNat 32 d) := if_pos h

theorem asmDuration_of_le {d : Nat} (h : 2 ^ 32 ≤ d) : asmDuration d = .error .durationOutOfRange := if_neg (Nat.not_lt.2 h)

theorem asmSlot_number_of_lt {n : Nat} (h : n < 16) : asmSlot (.number n) = .ok (BitVec.ofNat 4 n) := if_pos h

theorem asmSlot_number_of_le {n : Nat} (h : 16 ≤ n) : asmSlot (.number n) = .error .registerOutOfRange := if_neg (Nat.not_lt.2 h)

section Lines
variable (p : Params) {lvl dur n : Nat}

theorem assemble_feed (hl : lvl < 2) (hd : dur < 2 ^ 32) :
    (AsmLine.feed lvl dur).assemble p = .ok [encode (.feed (lvl == 1) (BitVec.ofNat 32 dur))] := by
  simp only [AsmLine.assemble, AsmLine.expand, if_neg (Nat.not_le.2 hl), asmDuration_of_lt hd]
  rfl

theorem assemble_feed_of_level (hl : 2 ≤ lvl) : (AsmLine.feed lvl dur).assemble p = .error .levelOutOfRange := by
  simp only [AsmLine.assemble, AsmLine.expand, if_pos hl]
  rfl

theorem assemble_feed_of_duration (hl : lvl < 2) (hd : 2 ^ 32 ≤ dur) :
    (AsmLine.feed lvl dur).assemble p = .error .durationOutOfRange := by
  simp only [AsmLine.assemble, AsmLine.expand, if_neg (Nat.not_le.2 hl), asmDuration_of_le hd]
  rfl

theorem assemble_read_number (hn : n < 16) :
    (AsmLine.read (.number n)).assemble p = .ok [encode (.read (BitVec.ofNat 4 n))] := by
  simp only [AsmLine.assemble, AsmLine.expand, asmSlot_number_of_lt hn]
  rfl

theorem assemble_read_number_of_le (hn : 16 ≤ n) : (AsmLine.read (.number n)).assemble p = .error .registerOutOfRange := by
  simp only [AsmLine.assemble, AsmLine.expand, asmSlot_number_of_le hn]
  rfl

end Lines

/-- Settles O13: each line has one command, whose word has that value; a FEED's error is its level's, then its duration's. -/
theorem assemblyLinesAssemble : Obligations.AssemblyLinesAssemble := by
  refine ⟨fun lvl dur hl hd => ⟨_, assemble_feed params hl hd, ?feed⟩, fun lvl dur h => ?feedError, rfl,
    fun n hn => ⟨_, assemble_read_number params hn, ?read⟩, fun n hn => assemble_read_number_of_le params hn⟩
  case feed =>
    have hlvl : (lvl == 1).toNat = lvl := by interval_cases lvl <;> rfl
    rw [encode_feed_toNat, hlvl, BitVec.toNat_ofNat, Nat.mod_eq_of_lt hd]
  case feedError =>
    by_cases hl : lvl < 2
    · exact ⟨_, assemble_feed_of_duration params hl (Nat.not_lt.1 fun hd => h ⟨hl, hd⟩)⟩
    · exact ⟨_, assemble_feed_of_level params (Nat.not_lt.1 hl)⟩
  case read => rw [encode_read_toNat, BitVec.toNat_ofNat, Nat.mod_eq_of_lt hn]

/-- Settles O51: the first pulse is held and the second one differs from it (41_manchester_assembler.md R82). -/
theorem bitPulsesPushTheBit : Obligations.BitPulsesPushTheBit :=
  fun _ hA _ _ x hd hh => Block.performAll_bitPulses hA hd hh x

end Sys2Proof.Machine
end

section
/-! SUPPORT. The classifier's windows as inequalities (40_pulse_classifier.md R71, R72). -/

namespace Sys2Proof.Machine

/-- The two tests of the classifier at every admissible configuration: the long window, then the short one, then Invalid. -/
theorem classify_eq_ite {p : Params} (hA : p.Admissible) (pl : Bool) (d : Duration) :
    classify p pl (durOperand p d) =
      if 801 ≤ d.toNat ∧ d.toNat ≤ 1199 then .valid .long pl
      else if 301 ≤ d.toNat ∧ d.toNat ≤ 699 then .valid .short pl
      else .invalid := by
  have hlong : inWindow (durOperand p d) p.longUs p.tolUs ↔ 801 ≤ d.toNat ∧ d.toNat ≤ 1199 := by
    rw [inWindow_iff, durOperand_toNat hA, hA.longUs, hA.tolUs]
    omega
  have hshort : inWindow (durOperand p d) p.shortUs p.tolUs ↔ 301 ≤ d.toNat ∧ d.toNat ≤ 699 := by
    rw [inWindow_iff, durOperand_toNat hA, hA.shortUs, hA.tolUs]
    omega
  simp only [classify, hlong, hshort]

/-- Settles O17: the two windows are disjoint (40_pulse_classifier.md R73), so their order does not matter. -/
theorem classifierWindows : Obligations.ClassifierWindows := by
  intro p hA pl d
  rw [classify_eq_ite hA]
  refine ⟨fun hshort => ?short, fun hlong => if_pos hlong, fun hout => ?invalid⟩
  case short => rw [if_neg (by omega), if_pos hshort]
  case invalid => rw [if_neg (by omega), if_neg (by omega)]

end Sys2Proof.Machine
end

section
/-! SUPPORT. The assembler, one equation per case of a symbol (41_manchester_assembler.md R80 to R83), and the FEED on the machine by what
the assembler did with its symbol. -/

namespace Sys2Proof.Machine

section advance
variable {p : Params} {b : Block p} {c : PulseClass} {h : Bool}

theorem advance_invalid (b : Block p) : advance .invalid b = (b.fullReset, none) := rfl

theorem advance_first_half (hh : b.hold = false) : advance (.valid c h) b = ({ b with first := h, hold := true }, none) := if_pos hh

theorem advance_transition (hh : b.hold = true) (hf : b.first ≠ h) : advance (.valid c h) b = ({ b with hold := false }, some h) := by
  rw [advance, if_neg (by simp [hh]), if_pos hf]

theorem advance_desync (hh : b.hold = true) (hf : b.first = h) : advance (.valid c h) b = (b.fullReset, none) := by
  rw [advance, if_neg (by simp [hh]), if_neg (not_not.2 hf)]

/-- The class of a valid symbol takes no part (R84). -/
theorem advance_valid_class (c c' : PulseClass) (h : Bool) (b : Block p) : advance (.valid c h) b = advance (.valid c' h) b := rfl

end advance

section exec
variable {s : State} {lvl : Bool} {dur : Duration} {b : Block params}

theorem exec_feed_of_advance_none (h : advance (classify params (protocolLevel params lvl) (durOperand params dur)) s.block = (b, none)) :
    exec (.feed lvl dur) s = .next (s.answer (b, respond .ok .none 0)) := by
  simp only [exec_eq_answer_perform, Block.perform, Block.feed, h]

theorem exec_feed_of_advance_some {x : Bool}
    (h : advance (classify params (protocolLevel params lvl) (durOperand params dur)) s.block = (b, some x)) :
    exec (.feed lvl dur) s = .next (s.answer ((frameStep (b.pushBit x)).1, respond .ok (frameStep (b.pushBit x)).2 0)) := by
  simp only [exec_eq_answer_perform, Block.perform, Block.feed, h]

/-- A FEED shows no more of its pulse than what the assembler does with the symbol. -/
theorem exec_feed_congr {l m : Bool} {d e : Duration}
    (h : advance (classify params (protocolLevel params l) (durOperand params d)) s.block =
      advance (classify params (protocolLevel params m) (durOperand params e)) s.block) :
    exec (.feed l d) s = exec (.feed m e) s := by
  simp only [exec_eq_answer_perform, Block.perform, Block.feed, h]

end exec

/-- Settles O18: the assembler resets fully and emits no bit (41_manchester_assembler.md R80). -/
theorem feedInvalidPulseFullReset : Obligations.FeedInvalidPulseFullReset := by
  intro s lvl dur hsym
  exact exec_feed_of_advance_none (by rw [hsym, advance_invalid]; rfl)

/-- Settles O19: with no half pending the assembler holds this one and emits no bit (R81). -/
theorem feedFirstHalfIsHeld : Obligations.FeedFirstHalfIsHeld := by
  intro s lvl dur c h hsym hhold
  exact exec_feed_of_advance_none (by rw [hsym, advance_first_half hhold])

/-- Settles O20: two equal halves reset the assembler fully, and no bit is emitted (R83). -/
theorem feedDesyncFullReset : Obligations.FeedDesyncFullReset := by
  intro s lvl dur c h hsym hhold hfirst
  exact exec_feed_of_advance_none (by rw [hsym, advance_desync hhold hfirst]; rfl)

/-- Settles O21: two different halves emit the second as a bit, which is pushed before the parser's step (R82). -/
theorem feedTransitionPushesHalfValue : Obligations.FeedTransitionPushesHalfValue := by
  intro s lvl dur c h hsym hhold hfirst
  exact exec_feed_of_advance_some (by rw [hsym, advance_transition hhold hfirst])

/-- Settles O22: the assembler does the same with both symbols. -/
theorem feedIgnoresPulseClass : Obligations.FeedIgnoresPulseClass := by
  intro s l m d e c c' h hd he
  exact exec_feed_congr (by rw [hd, he, advance_valid_class c c'])

end Sys2Proof.Machine
end

section
/-! SUPPORT. The bit accumulator as numbers (42_bit_accumulator.md): a push modulo the two widths (R90, R93), the parser below the preamble's
length (R93), and the accumulator that a capture takes (R94). -/

namespace Sys2Proof.Machine

variable {p : Params} {b : Block p}

/-- The push modulo `2^ACC_W`: the bit goes into the place that the shift leaves free (R90). -/
theorem Block.pushBit_acc_toNat_mod (b : Block p) (x : Bool) :
    (b.pushBit x).acc.toNat = (2 * b.acc.toNat + x.toNat) % 2 ^ p.accW := by
  have hbit : x.toNat < 2 ^ 1 := x.toNat_lt
  calc (b.pushBit x).acc.toNat
      = b.acc.toNat <<< 1 % 2 ^ p.accW ||| x.toNat % 2 ^ p.accW := by simp [Block.pushBit]
    _ = (b.acc.toNat <<< 1 + x.toNat) % 2 ^ p.accW := by
      rw [← Nat.or_mod_two_pow, Nat.shiftLeft_add_eq_or_of_lt hbit]
    _ = (2 * b.acc.toNat + x.toNat) % 2 ^ p.accW := by rw [Nat.shiftLeft_eq, pow_one, mul_comm]

/-- The count modulo `2^CNT_W` (R93). -/
theorem Block.pushBit_cnt_toNat_mod (b : Block p) (x : Bool) :
    (b.pushBit x).cnt.toNat = (b.cnt.toNat + 1) % 2 ^ p.cntW := by
  have hone : (1 : BitVec p.cntW).toNat = 1 % 2 ^ p.cntW := BitVec.toNat_ofNat 1 p.cntW
  rw [Block.pushBit_cnt, BitVec.toNat_add, hone, Nat.add_mod_mod]

/-- Settles O24: the accumulator and the count by their equations, and no other element is written. -/
theorem pushShiftsInAndCounts : Obligations.PushShiftsInAndCounts :=
  fun _ b x => ⟨b.pushBit_acc_toNat_mod x, b.pushBit_cnt_toNat_mod x, rfl⟩

/-- A full count wraps to 0 (R93). -/
theorem Block.pushBit_cnt_eq_zero (x : Bool) (h : b.cnt.toNat = 2 ^ p.cntW - 1) : (b.pushBit x).cnt = 0 := by
  refine BitVec.eq_of_toNat_eq ?_
  rw [b.pushBit_cnt_toNat_mod x, h, Nat.sub_add_cancel Nat.one_le_two_pow, Nat.mod_self]
  simp

theorem preambleLen_le_of_preambleMatches (h : preambleMatches b = true) : p.preambleLen ≤ b.cnt.toNat :=
  of_decide_eq_true (Bool.and_eq_true_iff.1 h).1

/-- In SEARCH the parser waits for as many bits as the preamble has (43_frame_parser.md R101, R102). -/
theorem frameStep_of_search_of_cnt_lt (hp : b.pstate = .search) (hc : b.cnt.toNat < p.preambleLen) :
    frameStep b = (b, .none) := by
  obtain e | ⟨-, hm, -⟩ | ⟨hs, -⟩ | ⟨hs, -⟩ := frameStep_cases b
  · exact e
  · exact absurd (preambleLen_le_of_preambleMatches hm) (Nat.not_le.2 hc)
  · simp [hp] at hs
  · simp [hp] at hs

/-- Settles O25: the wrap is that of the sum, and a count below 18 is below the preamble's 19 bits after the push too. -/
theorem wrappedCountBlocksPreamble : Obligations.WrappedCountBlocksPreamble := by
  refine fun p hA b x => ⟨Block.pushBit_cnt_eq_zero x, fun hp hc => frameStep_of_search_of_cnt_lt hp ?_⟩
  calc (b.pushBit x).cnt.toNat
      ≤ b.cnt.toNat + 1 := (b.pushBit_cnt_toNat_mod x).trans_le (Nat.mod_le _ _)
    _ < p.preambleLen := by rw [hA.preambleLen]; omega

/-- Outside SEARCH the accumulator holds no more than the bits counted (10_state.md R29 (d)). -/
theorem Block.Inv.acc_lt (h : b.Inv) (hs : b.pstate ≠ .search) : b.acc.toNat < 2 ^ b.cnt.toNat := by
  refine h.accHoldsPushed ?_
  cases hp : b.pstate with
  | search => exact absurd hp hs
  | header => exact .inl rfl
  | payload => exact .inr rfl

/-- A capture loses nothing of an accumulator that fits it (R94). -/
theorem Block.accLow_toNat_of_lt (h : b.acc.toNat < 2 ^ 32) : b.accLow.toNat = b.acc.toNat := by
  rw [Block.accLow, BitVec.toNat_setWidth, Nat.mod_eq_of_lt h]

/-- Settles O47: the invariant bounds count and accumulator before the push, which makes each of them one bit longer. -/
theorem captureTakesWholeAccumulator : Obligations.CaptureTakesWholeAccumulator := by
  intro p hA b x h hs
  have hcnt := h.pushBit_cnt_toNat hA hs x
  have hle : (b.pushBit x).cnt.toNat ≤ 32 := hcnt.trans_le (Nat.succ_le_succ (h.count_le hs))
  have hacc : (b.pushBit x).acc.toNat < 2 ^ (b.pushBit x).cnt.toNat := by
    rw [hcnt]
    exact Block.pushBit_acc_lt x (h.acc_lt hs)
  exact ⟨hle, hacc, Block.accLow_toNat_of_lt (hacc.trans_le (Nat.pow_le_pow_right two_pos hle))⟩

end Sys2Proof.Machine
end

section
/-! SUPPORT. `swap32` bit by bit (43_frame_parser.md R106, R107), and the rows of the sensor table (R108). -/

namespace Sys2Proof.Machine

/-- Neighbouring groups of `s` bits change places; `m` holds the lower group of each two. Both lines of `swap32` are of this form. -/
def exchangeGroups (m : Word) (s : Nat) (v : Word) : Word := (v &&& m) <<< s ||| (v &&& ~~~m) >>> s

theorem swap32_eq_exchangeGroups (v : Word) : swap32 v = exchangeGroups 0x33333333 2 (exchangeGroups 0x55555555 1 v) := rfl

/-- Of the two shifted parts, the mask `m` lets through the one that holds bit `i`'s partner. -/
theorem getLsbD_exchangeGroups {m : Word} {s : Nat} (hs : s = 1 ∨ s = 2) (hm : ∀ i < 32, m.getLsbD i = decide (i % (2 * s) < s))
    (v : Word) {i : Nat} (hi : i < 32) :
    (exchangeGroups m s v).getLsbD i = v.getLsbD (if i % (2 * s) < s then i + s else i - s) := by
  simp only [exchangeGroups, BitVec.getLsbD_or, BitVec.getLsbD_shiftLeft, BitVec.getLsbD_ushiftRight, BitVec.getLsbD_and,
    BitVec.getLsbD_not]
  split
  case isTrue h =>
    have hin : s + i < 32 := by obtain rfl | rfl := hs <;> omega
    have habove : m.getLsbD (s + i) = false := by
      rw [hm _ hin, decide_eq_false_iff_not]
      obtain rfl | rfl := hs <;> omega
    have hbelow : ¬ i < s → m.getLsbD (i - s) = false := by
      intro his
      rw [hm _ (by omega), decide_eq_false_iff_not]
      obtain rfl | rfl := hs <;> omega
    have hshifted : (!decide (i < s) && (v.getLsbD (i - s) && m.getLsbD (i - s))) = false := by
      by_cases his : i < s
      · simp [his]
      · simp [hbelow his]
    simp only [hi, hin, habove, hshifted, decide_true, Bool.true_and, Bool.false_or, Bool.not_false, Bool.and_true, Nat.add_comm i s]
  case isFalse h =>
    have his : ¬ i < s := by obtain rfl | rfl := hs <;> omega
    have hbelow : m.getLsbD (i - s) = true := by
      rw [hm _ (by omega), decide_eq_true_iff]
      obtain rfl | rfl := hs <;> omega
    have habove : s + i < 32 → m.getLsbD (s + i) = true := by
      intro hin
      rw [hm _ hin, decide_eq_true_iff]
      obtain rfl | rfl := hs <;> omega
    have hkept : (decide (s + i < 32) && !m.getLsbD (s + i)) = false := by
      by_cases hin : s + i < 32
      · simp [habove hin]
      · simp [hin]
    simp [hi, his, hbelow, hkept]

/-- Settles O36: the pairs of a nibble change places, and the bits of each pair. -/
theorem swapReversesEachNibble : Obligations.SwapReversesEachNibble := by
  intro v k j hk hj
  rw [swap32_eq_exchangeGroups, getLsbD_exchangeGroups (.inr rfl) (by decide) _ (by omega),
    getLsbD_exchangeGroups (.inl rfl) (by decide) _ (by split <;> omega)]
  congr 1
  split_ifs <;> omega

/-- Settles O37: a nibble reversed twice is the nibble. -/
theorem swapIsItsOwnInverse : Obligations.SwapIsItsOwnInverse := by
  refine fun v => BitVec.eq_of_getLsbD_eq fun i hi => ?_
  have hbit := swapReversesEachNibble v (i / 4) (3 - i % 4) (by omega) (by omega)
  have hswap := swapReversesEachNibble (swap32 v) (i / 4) (i % 4) (by omega) (by omega)
  rw [show 4 * (i / 4) + i % 4 = i by omega] at hswap
  rw [hswap, show 4 * (i / 4) + 3 - i % 4 = 4 * (i / 4) + (3 - i % 4) by omega, hbit]
  congr 1
  omega

section lookup
variable {p : Params}

/-- The codes are distinct, so a row is found by its own code. -/
theorem lookup_of_mem (hA : p.Admissible) {r : SensorRow} (hr : r ∈ p.sensorTable) : lookup p r.code = (r.width, r.kind) := by
  obtain ⟨q, hq, hcode, e⟩ | ⟨hne, -⟩ := lookup_cases p r.code
  · rw [e, List.inj_on_of_nodup_map hA.distinctCodes hq hr hcode]
  · exact absurd rfl (hne r hr)

theorem lookup_of_forall_ne {c : BitVec 16} (h : ∀ r ∈ p.sensorTable, r.code ≠ c) : lookup p c = (0, .none) := by
  obtain ⟨r, hr, hcode, -⟩ | ⟨-, e⟩ := lookup_cases p c
  · exact absurd hcode (h r hr)
  · exact e

end lookup

/-- Settles O38: the document's table is the admissible one whose only row is the document's. -/
theorem lookupFindsRow : Obligations.LookupFindsRow := by
  refine ⟨fun p hA => ⟨fun r hr => lookup_of_mem hA hr, fun c h => lookup_of_forall_ne h⟩,
    lookup_of_mem params_admissible params_admissible.documentRow, fun c hc => lookup_of_forall_ne fun r hr => ?_⟩
  rw [List.mem_singleton.1 hr]
  exact hc.symm

end Sys2Proof.Machine
end

section
/-! SUPPORT. The frame parser's step in each of its states (43_frame_parser.md R101 to R105), and the FEED that completes a pair at the
hardware's parameters. -/

namespace Sys2Proof.Machine

section frameStep
variable {p : Params} {b : Block p}

theorem frameStep_of_search (hp : b.pstate = .search) : frameStep b = searchStep b := by simp only [frameStep, hp]
theorem frameStep_of_header (hp : b.pstate = .header) : frameStep b = headerStep b := by simp only [frameStep, hp]
theorem frameStep_of_payload (hp : b.pstate = .payload) : frameStep b = payloadStep b := by simp only [frameStep, hp]

/-- Every capture takes the same bits of the accumulator (42_bit_accumulator.md R94). -/
theorem Block.accLow_eq_extractLsb' (hA : p.Admissible) (b : Block p) : b.accLow = b.acc.extractLsb' 0 32 :=
  BitVec.setWidth_eq_extractLsb' (by have := hA.accW; omega)

/-- A comparison under a mask, on numbers: nothing above the mask's 20 bits takes part. -/
theorem and_setWidth_eq_setWidth_iff {w : Nat} (hw : 20 ≤ w) (v : BitVec w) (m x : BitVec 20) :
    v &&& m.setWidth w = x.setWidth w ↔ v.toNat &&& m.toNat = x.toNat := by
  rw [← BitVec.toNat_inj, BitVec.toNat_and, BitVec.toNat_setWidth_of_le hw, BitVec.toNat_setWidth_of_le hw]

/-- The preamble condition as the two comparisons of R101, on numbers. -/
theorem preambleMatches_iff_toNat (hA : p.Admissible) (b : Block p) :
    preambleMatches b = true ↔ 19 ≤ b.cnt.toNat ∧ b.acc.toNat &&& p.preambleMask.toNat = 0x7FFF5 := by
  rw [preambleMatches, Bool.and_eq_true_iff, decide_eq_true_iff, beq_iff_eq,
    and_setWidth_eq_setWidth_iff (by have := hA.accW; omega), hA.preambleLen, hA.preamblePat]
  rfl

/-- The preamble condition at every admissible configuration: under the mask 0xFFFFF the 20th newest bit must be 0 too. -/
theorem preambleMatches_iff (hA : p.Admissible) (b : Block p) :
    preambleMatches b = true ↔
      19 ≤ b.cnt.toNat ∧ b.acc.extractLsb' 0 19 = 0x7FFF5 ∧ (p.preambleMask = 0xFFFFF → b.acc.getLsbD 19 = false) := by
  have hlow : b.acc.extractLsb' 0 19 = 0x7FFF5 ↔ b.acc.toNat % 2 ^ 19 = 0x7FFF5 := by
    rw [← BitVec.toNat_inj, BitVec.extractLsb'_toNat, Nat.shiftRight_zero]
    rfl
  have hbit : b.acc.getLsbD 19 = false ↔ b.acc.toNat / 2 ^ 19 % 2 = 0 := by
    rw [BitVec.getLsbD, Nat.testBit_eq_decide_div_mod_eq, decide_eq_false_iff_not]
    omega
  rw [preambleMatches_iff_toNat hA, hlow, hbit]
  refine and_congr_right fun _ => ?_
  obtain hm | hm := hA.preambleMask
  · rw [hm, show (0x7FFFF : BitVec 20).toNat = 2 ^ 19 - 1 from rfl, Nat.and_two_pow_sub_one_eq_mod]
    simp
  · rw [hm, show (0xFFFFF : BitVec 20).toNat = 2 ^ 20 - 1 from rfl, Nat.and_two_pow_sub_one_eq_mod]
    simp only [forall_const]
    omega

/-- The preamble condition in the words of R101, at the hardware's mask. -/
theorem preambleMatches_params_iff (b : Block params) :
    preambleMatches b = true ↔ 19 ≤ b.cnt.toNat ∧ b.acc &&& 0x7FFFF = 0x7FFF5 := by
  rw [preambleMatches, Bool.and_eq_true_iff, decide_eq_true_iff, beq_iff_eq]
  rfl

theorem searchStep_of_match (h : preambleMatches b = true) :
    searchStep b = ({ b with acc := 0, cnt := 0, pstate := .header }, .none) := if_pos h

theorem searchStep_of_no_match (h : ¬ preambleMatches b = true) : searchStep b = (b, .none) := if_neg h

/-- Header completion, for a sensor type with a payload and for one without (R103). -/
theorem headerStep_of_end (hA : p.Admissible) (hc : b.cnt.toNat = 32) :
    let h := swap32 (b.acc.extractLsb' 0 32)
    let w := (lookup p (sensorId h)).1
    headerStep b =
      ({ b with
          acc := 0, cnt := 0, hdr := h, hdrValid := true, payValid := false, varw := BitVec.ofNat 8 w
          pstate := if 0 < w then .payload else .search },
        if 0 < w then .none else .headerOnly) := by
  simp only [headerStep, hA.hdrBits, hc, if_true, b.accLow_eq_extractLsb' hA]
  split <;> rfl

theorem headerStep_before_end (hA : p.Admissible) (hc : b.cnt.toNat ≠ 32) : headerStep b = (b, .none) :=
  if_neg (hA.hdrBits ▸ hc)

end frameStep

/-- Settles O28: the preamble condition decides between the clear that enters HEADER and no write at all. -/
theorem searchStepUnderBothMasks : Obligations.SearchStepUnderBothMasks := by
  intro p hA b hp
  rw [frameStep_of_search hp]
  simp only [← preambleMatches_iff hA]
  rfl

/-- Settles O32: the count decides between the capture and no write at all, and the parameter whether the capture clears. -/
theorem payloadStepUnderBothSettings : Obligations.PayloadStepUnderBothSettings := by
  intro p hA b hp
  rw [frameStep_of_payload hp, payloadStep, hA.chkBits]
  cases p.payloadDoneClears <;> rfl

section exec
variable {s : State} {lvl : Bool} {dur : Duration}

theorem Block.afterPush_varw {p : Params} (b : Block p) (lvl : Bool) : (b.afterPush lvl).varw = b.varw := rfl

/-- A FEED that completes a pair answers what the parser's step on the pushed bit does (41_manchester_assembler.md R82). -/
theorem exec_feed_of_completes (h : s.block.Completes lvl dur) :
    exec (.feed lvl dur) s = .next
      (s.answer ((frameStep (s.block.afterPush lvl)).1, respond .ok (frameStep (s.block.afterPush lvl)).2 0)) := by
  obtain ⟨hd, hhold, hfirst⟩ := h
  obtain ⟨c, e⟩ := classify_of_validDuration params_admissible hd (!lvl)
  have hlvl : protocolLevel params lvl = !lvl := Bool.xor_true lvl
  refine exec_feed_of_advance_some ?_
  rw [hlvl, e, advance_transition hhold (by simp [hfirst])]

theorem exec_feed_of_frameStep {b : Block params} {e : Event} (h : s.block.Completes lvl dur)
    (hf : frameStep (s.block.afterPush lvl) = (b, e)) :
    exec (.feed lvl dur) s = .next { s with block := b, response := some { status := .ok, event := e, data := 0 } } := by
  rw [exec_feed_of_completes h, hf]
  rfl

end exec

/-- Settles O26: the pushed block matches, and the match keeps nothing of the push. -/
theorem feedPreambleMatchEntersHeader : Obligations.FeedPreambleMatchEntersHeader := by
  intro s lvl dur h hp hcnt hacc
  refine exec_feed_of_frameStep h ?_
  rw [frameStep_of_search (b := s.block.afterPush lvl) hp, searchStep_of_match ((preambleMatches_params_iff _).2 ⟨hcnt, hacc⟩)]
  rfl

/-- Settles O27: the pushed block does not match. -/
theorem feedWithoutMatchStaysInSearch : Obligations.FeedWithoutMatchStaysInSearch := by
  intro s lvl dur h hp hno
  refine exec_feed_of_frameStep h ?_
  rw [frameStep_of_search (b := s.block.afterPush lvl) hp, searchStep_of_no_match (mt (preambleMatches_params_iff _).1 hno)]

/-- Settles O29: the pushed block is at the header's end. -/
theorem feedHeaderCompletion : Obligations.FeedHeaderCompletion := by
  intro s lvl dur h hp hcnt hdr w
  refine exec_feed_of_frameStep h ?_
  rw [frameStep_of_header (b := s.block.afterPush lvl) hp, headerStep_of_end params_admissible hcnt]
  rfl

/-- Settles O30: the pushed block is not at the header's end. -/
theorem feedBeforeHeaderEnd : Obligations.FeedBeforeHeaderEnd := by
  intro s lvl dur h hp hcnt
  refine exec_feed_of_frameStep h ?_
  rw [frameStep_of_header (b := s.block.afterPush lvl) hp, headerStep_before_end params_admissible hcnt]

/-- Settles O31: O32 at the hardware's parameters, for the pushed block. -/
theorem feedPayloadCompletion : Obligations.FeedPayloadCompletion := by
  intro s lvl dur h hp
  have hstep := payloadStepUnderBothSettings params params_admissible (s.block.afterPush lvl) hp
  refine ⟨fun hcnt => exec_feed_of_frameStep h ?_, fun hcnt => exec_feed_of_frameStep h ?_⟩
  · rw [hstep, Block.afterPush_varw, if_pos hcnt, ← Block.accLow, Block.accLow_eq_extractLsb' params_admissible]
    rfl
  · rw [hstep, Block.afterPush_varw, if_neg hcnt]

end Sys2Proof.Machine
end

section
/-! SUPPORT. The preamble sent after a full reset (95_test_vectors.md W3), and the whole frame behind it (W5). -/

namespace Sys2Proof.Machine

variable {p : Params} {b : Block p}

theorem Block.search_staysBefore (hA : p.Admissible) (hp : b.pstate = .search) : b.StaysBefore 19 := by
  intro first k n hk
  refine frameStep_of_search_of_cnt_lt hp ?_
  rw [Block.received_cnt_toNat first n hA (by omega), hA.preambleLen]
  exact hk

theorem Block.received_acc_toNat (first : Bool) (k : Nat) {n : Nat} (hA : p.Admissible) (hn : n < 2 ^ 40) :
    (b.received first k n).acc.toNat = n :=
  (BitVec.toNat_ofNat n p.accW).trans (Nat.mod_eq_of_lt (hn.trans_le (Nat.pow_le_pow_right two_pos hA.accW)))

/-- The 19 bits of the pattern in a cleared accumulator match under both masks: nothing stands before them. -/
theorem Block.frameStep_received_preamble (hA : p.Admissible) (hp : b.pstate = .search) (first : Bool) :
    frameStep (b.received first 19 0x7FFF5) = ({ b with first, acc := 0, cnt := 0, pstate := .header }, .none) := by
  have hm : preambleMatches (b.received first 19 0x7FFF5) = true := by
    rw [preambleMatches_iff_toNat hA, Block.received_cnt_toNat first _ hA (by decide), Block.received_acc_toNat first _ hA (by decide)]
    obtain hmask | hmask := hA.preambleMask <;> rw [hmask] <;> decide
  rw [frameStep_of_search (b := b.received first 19 0x7FFF5) hp, searchStep_of_match hm]
  rfl

/-- Settles O52: the 18 first bits are received in SEARCH, and the last one, a 1, completes the pattern. -/
theorem preambleAfterResetEntersHeader : Obligations.PreambleAfterResetEntersHeader := by
  intro p hA b d hd
  obtain ⟨f, e⟩ := Block.performAll_before_end (b := b.fullReset) hA hd rfl rfl rfl (Block.search_staysBefore hA rfl) (k := 18)
    (n := 0x7FFF5 / 2) (by decide) (by decide)
  rw [preambleBits, hA.preambleLen, hA.preamblePat, show (0x7FFF5 : BitVec 20).toNat = 0x7FFF5 from rfl, bitsPulses_last,
    Block.performAll_append, e, Block.performAll_next_bit hA hd rfl, Block.frameStep_received_preamble hA rfl]
  rfl

/-- A second list of commands starts from the block that the first one leaves. -/
theorem Block.performAll_append_of_eq {is js : List Instr} {c : Block p} {rs : List Response} (h : b.performAll is = (c, rs)) :
    b.performAll (is ++ js) = ((c.performAll js).1, rs ++ (c.performAll js).2) := by
  rw [Block.performAll_append, h]

/-- Settles O55: O52, O53 and O54 one after the other: each stage starts where the one before it ends. -/
theorem wholeFrameIsReceived : Obligations.WholeFrameIsReceived := by
  intro p hA b d rawHdr rawPay hd w hw hraw r
  have hheader := headerWordIsCaptured p hA { b.fullReset with pstate := .header } d rawHdr hd rfl rfl rfl rfl
  generalize hq : ({ b.fullReset with pstate := .header } : Block p).performAll (bitsPulses p d (bitsMsbFirst 32 rawHdr.toNat)) = q
    at hheader
  obtain ⟨hhdr, hvalid, -, hvarw, -, hhold, hacc, hcnt, hpstate, hresp⟩ := hheader
  rw [if_pos hw] at hpstate hresp
  have hpayload := payloadWordIsCaptured p hA q.1 d rawPay hd hpstate hhold hacc hcnt
  rw [hvarw] at hpayload
  generalize hf : q.1.performAll (bitsPulses p d (bitsMsbFirst (w + 8) rawPay)) = f at hpayload
  obtain ⟨hpay, hpv, hsearch, hhdr', hvarw', hvalid', -, hresp'⟩ := hpayload hw (lookup_width_le hA _) hraw
  have hr : r = (f.1, List.replicate 38 (respond .ok .none 0) ++ (q.2 ++ f.2)) := by
    simp only [r, bitsPulses_append, List.append_assoc]
    rw [Block.performAll_append_of_eq (preambleAfterResetEntersHeader p hA b d hd), Block.performAll_append, hq, hf]
  rw [hr, hresp, hresp']
  refine ⟨hhdr'.trans hhdr, hpay, hvalid'.trans hvalid, hpv, (congrArg _ hvarw').trans hvarw, hsearch, ?_⟩
  rw [show 117 + 2 * w = 38 + (63 + (1 + (2 * w + 15))) by omega]
  simp only [w, List.replicate_add, List.replicate_one, List.append_assoc]

end Sys2Proof.Machine
end

section
/-! SUPPORT. The field decoder (44_field_decoder.md): the channel, the tenths and TEMP_VALID, as READ shows them. -/

namespace Sys2Proof.Machine

/-- READ answers its slot and changes nothing else (46_operations.md R142). -/
theorem exec_read (a : SlotAddr) (s : State) :
    exec (.read a) s = .next { s with response := some { status := .ok, event := .none, data := regRead s.block a } } :=
  exec_eq_answer_perform (.read a) s

/-- One channel per bit length of the nibble: each halving of the loop adds 1 (44_field_decoder.md R121). -/
theorem channelOf_ranges (n : BitVec 4) :
    (n.toNat ≤ 1 → channelOf n = 1) ∧ (2 ≤ n.toNat ∧ n.toNat ≤ 3 → channelOf n = 2) ∧
      (4 ≤ n.toNat ∧ n.toNat ≤ 7 → channelOf n = 3) ∧ (8 ≤ n.toNat → channelOf n = 4) := by
  revert n
  decide

/-- The CHANNEL field of FIELDS is the channel: it fits three bits. -/
theorem fieldsSlot_channel {p : Params} (b : Block p) :
    ((fieldsSlot b).extractLsb' 16 3).toNat = channelOf (b.hdr.extractLsb' 12 4) := by
  obtain ⟨-, hchannel, -⟩ := fieldsSlot_fields b
  rw [hchannel, BitVec.toNat_ofNat]
  exact Nat.mod_eq_of_lt (channelOf_lt _)

/-- Settles O39: READ FIELDS shows `channelOf` of the nibble, which has one value on each range. -/
theorem readFieldsShowsChannel : Obligations.ReadFieldsShowsChannel := by
  intro s
  refine ⟨fieldsSlot s.block, exec_read 0x7 s, ?_⟩
  rw [fieldsSlot_channel]
  exact channelOf_ranges _

theorem nibble_eq_extractLsb' (v : Word) (k : Nat) : nibble v k = (v.extractLsb' (4 * k) 4).toNat := by
  rw [nibble, BitVec.toNat_and, BitVec.toNat_ushiftRight, BitVec.extractLsb'_toNat]
  exact Nat.and_two_pow_sub_one_eq_mod _ 4

theorem nibble_ushiftRight_eight (v : Word) (k : Nat) : nibble (v >>> 8) k = nibble v (k + 2) := by
  rw [nibble, nibble, ← BitVec.shiftRight_add, show 8 + 4 * k = 4 * (k + 2) by omega]

/-- The tenths by the nibbles of `PAY` itself: hundreds, tens and ones, and the sign (44_field_decoder.md R124). -/
theorem tempTenths_eq (pay : Word) :
    tempTenths pay = (if nibble pay 2 = 0 then 1 else -1) * (100 * nibble pay 3 + 10 * nibble pay 4 + nibble pay 5 : Int) := by
  simp only [tempTenths, nibble_ushiftRight_eight, Nat.reduceAdd]
  by_cases hsign : nibble pay 2 = 0
  · rw [if_neg (not_not_intro hsign), if_pos hsign]
    omega
  · rw [if_pos hsign, if_neg hsign]
    omega

/-- The TENTHS field of TEMP, read as a signed number, is the tenths. -/
theorem tempSlot_tenths {p : Params} (b : Block p) : ((tempSlot b).extractLsb' 0 16).toInt = tempTenths b.pay := by
  obtain ⟨htenths, -⟩ := tempSlot_fields b
  rw [htenths, toInt_ofInt_tempTenths]

/-- Settles O40: READ TEMP shows `tempTenths`, whose magnitude is at most three digits of 15. -/
theorem readTempShowsTenths : Obligations.ReadTempShowsTenths := by
  intro s
  refine ⟨tempSlot s.block, exec_read 0x8 s, ?_⟩
  have hbound := natAbs_tempTenths_le s.block.pay
  rw [tempSlot_tenths]
  refine ⟨?_, by omega, by omega⟩
  simp only [tempTenths_eq, nibble_eq_extractLsb', Nat.reduceMul, Int.natCast_eq_zero]

/-- Settles O42: a valid payload has a valid header whose lookup gave a width, and every row with a width is TEMP_ONLY. -/
theorem tempValidIsPayValid : Obligations.TempValidIsPayValid := by
  intro p hA b hI
  cases hv : b.payValid with
  | false => simp only [tempValid, hv, Bool.false_and]
  | true =>
    obtain ⟨hhdr, hwidth⟩ := hI.payNeedsHdr hv
    have hkind : (lookup p (sensorId b.hdr)).2 = .tempOnly := lookup_kind hA (hI.varwLookup hhdr ▸ hwidth)
    simp only [tempValid, hv, hkind, beq_self_eq_true, Bool.and_true]

end Sys2Proof.Machine
end

section
/-! SUPPORT. The checksum (45_checksum.md): the loop's sum by the nibbles of the two words, and its swap, as READ shows them. -/

namespace Sys2Proof.Machine

theorem nibble_ushiftRight_four (v : Word) (k : Nat) : nibble (v >>> 4) k = nibble v (k + 1) := by
  rw [nibble, nibble, ← BitVec.shiftRight_add, show 4 + 4 * k = 4 * (k + 1) by omega]

/-- A word has eight nibbles. -/
theorem nibble_of_eight_le (v : Word) {k : Nat} (hk : 8 ≤ k) : nibble v k = 0 := by
  rw [nibble, BitVec.ushiftRight_eq_zero (by omega)]
  rfl

theorem sum_map_nibble_le (v : Word) (f : Nat → Nat) (n : Nat) : ((List.range n).map fun k => nibble v (f k)).sum ≤ n * 15 := by
  have h := List.sum_le_card_nsmul ((List.range n).map fun k => nibble v (f k)) 15 (by simp [nibble_le])
  simpa using h

/-- Each round adds the next nibble of either word: the low nibbles are shifted out before the first one is read. -/
theorem checksumLoop_eq_add_sums (n : Nat) (h v : Word) (sum : Nat) :
    checksumLoop n h v sum =
      sum + ((List.range n).map fun k => nibble h (k + 1)).sum + ((List.range n).map fun k => nibble v (k + 1)).sum := by
  induction n generalizing h v sum with
  | zero => rfl
  | succ n ih =>
    simp only [checksumLoop, ih, nibble_ushiftRight_four, List.range_succ_eq_map, List.map_cons, List.map_map, List.sum_cons,
      Function.comp_def, Nat.succ_eq_add_one, Nat.zero_add]
    omega

/-- The nibbles that the seven rounds cover (45_checksum.md R131): shifted by its checksum byte, the payload has six, of which
the first is shifted out unread, and the last two rounds find none. -/
theorem checksumLoop_seven (h v : Word) :
    checksumLoop 7 h (v >>> 8) (nibble h 0) =
      ((List.range 8).map fun k => nibble h k).sum + ((List.range 5).map fun k => nibble v (k + 3)).sum := by
  have h8 := nibble_of_eight_le v (k := 8) le_rfl
  have h9 := nibble_of_eight_le v (k := 9) (by decide)
  simp only [checksumLoop_eq_add_sums, nibble_ushiftRight_eight, List.range_succ, List.range_zero, List.nil_append, List.cons_append,
    List.map_cons, List.map_nil, List.sum_cons, List.sum_nil, Nat.reduceAdd, h8, h9]

/-- Thirteen nibbles of at most 15 (45_checksum.md R133). -/
theorem checksumLoop_seven_le (h v : Word) : checksumLoop 7 h (v >>> 8) (nibble h 0) ≤ 195 := by
  rw [checksumLoop_seven]
  exact Nat.add_le_add (sum_map_nibble_le h id 8) (sum_map_nibble_le v (· + 3) 5)

/-- The swap of an 8-bit sum: its low nibble becomes the high one (45_checksum.md R130, step 4). -/
theorem swapSumNibbles_toNat {sum : Nat} (h : sum < 256) : (swapSumNibbles sum).toNat = 16 * (sum % 16) + sum / 16 := by
  have hhigh : sum >>> 4 &&& 0xF = sum / 16 := by
    rw [Nat.shiftRight_eq_div_pow, show 0xF = 2 ^ 4 - 1 from rfl, Nat.and_two_pow_sub_one_eq_mod]
    omega
  rw [swapSumNibbles, hhigh, Nat.or_comm, ← Nat.shiftLeft_add_eq_or_of_lt (show sum / 16 < 2 ^ 4 by omega), Nat.shiftLeft_eq,
    BitVec.toNat_ofNat]
  omega

/-- Settles O41: the sum of the statement is the loop's, which fits eight bits. -/
theorem readChecksumShowsNibbleSum : Obligations.ReadChecksumShowsNibbleSum := by
  intro s
  refine ⟨checksumSlot s.block, exec_read 0x9 s, ?_⟩
  intro sum
  have hloop : checksumLoop 7 s.block.hdr (s.block.pay >>> 8) (nibble s.block.hdr 0) = sum := by
    rw [checksumLoop_seven]
    simp only [nibble_eq_extractLsb', Nat.mul_add, Nat.reduceMul, sum]
  have hbound : sum ≤ 195 := hloop ▸ checksumLoop_seven_le s.block.hdr s.block.pay
  obtain ⟨hsum, href, hok, -⟩ := checksumSlot_fields s.block
  rw [hsum, href, hok]
  refine ⟨hbound, ?_, rfl, rfl⟩
  rw [checksum, hloop]
  exact swapSumNibbles_toNat (by omega)

end Sys2Proof.Machine
end

section
/-! SUPPORT. The words that are no command (46_operations.md R143): outside the three rows, and by their fields. -/

namespace Sys2Proof

variable {w : CommandWord}

/-- Only the words outside the three rows decode to `illegal`. -/
theorem decode_eq_illegal_iff : decode w = .illegal w ↔ (Instr.illegal w).wellFormed = true := by
  refine ⟨fun h => ?_, decode_of_wellFormed_illegal⟩
  obtain ⟨-, hwf⟩ := encodeOfDecode w
  rwa [h] at hwf

/-- The words outside the three rows, by their OP: OP 00, or a reserved field that is not 0 (46_operations.md R143). -/
theorem wellFormed_illegal_iff_fields :
    (Instr.illegal w).wellFormed = true ↔
      opField w = 0b00 ∨ (opField w = 0b01 ∧ rsvField w ≠ 0) ∨ (opField w = 0b10 ∧ w.extractLsb' 0 38 ≠ 0) ∨
        (opField w = 0b11 ∧ w.extractLsb' 4 34 ≠ 0) := by
  have hop : ∀ x : BitVec 2, x = 0b00 ∨ x = 0b01 ∨ x = 0b10 ∨ x = 0b11 := by decide
  rw [wellFormed_illegal_iff, feedRow_matches_iff, resetRow_matches_iff, readRow_matches_iff]
  obtain h | h | h | h := hop (opField w) <;> simp [h]

end Sys2Proof
end

section
/-! SUPPORT. ILLEGAL and RESET on the machine (46_operations.md R143, R141). -/

namespace Sys2Proof.Machine

theorem exec_illegal (w : CommandWord) (s : State) :
    exec (.illegal w) s = .next { s with response := some { status := .illegal, event := .none, data := 0 } } :=
  exec_eq_answer_perform (.illegal w) s

/-- Settles O16: an illegal word is one that no row matches, which its OP and its reserved field tell. -/
theorem illegalWordChangesNothing : Obligations.IllegalWordChangesNothing :=
  ⟨exec_illegal, fun _ => decode_eq_illegal_iff.trans wellFormed_illegal_iff_fields⟩

theorem exec_reset (s : State) : exec .reset s = .next (s.answer (s.block.fullReset, respond .ok .none 0)) :=
  exec_eq_answer_perform .reset s

@[simp] theorem Block.fullReset_fullReset {p : Params} (b : Block p) : b.fullReset.fullReset = b.fullReset := rfl

/-- Settles O14: RESET is the full reset and its answer, and a full reset of a fully reset block writes nothing. -/
theorem resetClearsAndKeepsReading : Obligations.ResetClearsAndKeepsReading := by
  refine ⟨resetRow_matches_iff_eq.1 (encode_matches_row rfl), fun s => ⟨exec_reset s, fun t h => ?_⟩⟩
  rw [exec_reset] at h
  cases h
  rw [exec_reset, State.answer_toStateAt, StateAt.answer_block, Block.fullReset_fullReset]
  rfl

end Sys2Proof.Machine
end

section
/-! SUPPORT. FEED by its level and duration (46_operations.md R140). -/

namespace Sys2Proof.Machine

variable {p : Params} {d : Duration}

/-- A pulse outside both windows is Invalid (40_pulse_classifier.md R72). -/
theorem classify_of_not_validDuration (hA : p.Admissible) (hd : ¬ ValidDuration d) (pl : Bool) :
    classify p pl (durOperand p d) = .invalid := by
  rw [classify_eq_ite hA, if_neg fun hlong => hd (.inr hlong), if_neg fun hshort => hd (.inl hshort)]

/-- The half-value of a valid pulse is the inverted level (the spec's decision D3). -/
theorem classify_protocolLevel_params (hd : ValidDuration d) (lvl : Bool) :
    ∃ c, classify params (protocolLevel params lvl) (durOperand params d) = .valid c (!lvl) := by
  rw [show protocolLevel params lvl = !lvl from Bool.xor_true lvl]
  exact classify_of_validDuration params_admissible hd (!lvl)

/-- Settles O23: its four branches are O18, O19, the completed pair and O20. -/
theorem feedByLevelAndDuration : Obligations.FeedByLevelAndDuration := by
  intro s lvl dur
  dsimp only
  by_cases hd : ValidDuration dur
  · rw [if_neg (not_not_intro hd)]
    obtain ⟨c, hsym⟩ := classify_protocolLevel_params hd lvl
    cases hhold : s.block.hold with
    | false => exact feedFirstHalfIsHeld s lvl dur c _ hsym hhold
    | true =>
      rw [if_neg (by decide)]
      by_cases hfirst : s.block.first = lvl
      · rw [if_pos hfirst]
        exact exec_feed_of_completes ⟨hd, hhold, hfirst⟩
      · rw [if_neg hfirst]
        exact feedDesyncFullReset s lvl dur c _ hsym hhold (Bool.eq_not.2 hfirst)
  · rw [if_pos hd]
    exact feedInvalidPulseFullReset s lvl dur (classify_of_not_validDuration params_admissible hd _)

end Sys2Proof.Machine
end

section
/-! SUPPORT. The events (46_operations.md R145): the transitions of the parser that raise one, and the command that makes them. -/

namespace Sys2Proof.Machine

variable {p : Params}

/-- The parser raises an event exactly where it ends a frame: HEADER_ONLY from HEADER, FULL from PAYLOAD (43_frame_parser.md R103,
R105). -/
theorem frameStep_event_iff (b : Block p) :
    ((frameStep b).2 = .headerOnly ↔ b.pstate = .header ∧ (frameStep b).1.pstate = .search) ∧
      ((frameStep b).2 = .full ↔ b.pstate = .payload ∧ (frameStep b).1.pstate = .search) := by
  obtain e | ⟨hp, -, e⟩ | ⟨hp, -, e⟩ | ⟨hp, -, e⟩ := frameStep_cases b <;> rw [e]
  case inl => cases hp : b.pstate <;> simp
  case inr.inl => simp [hp]
  case inr.inr.inl =>
    by_cases hw : 0 < (lookup p (sensorId (swap32 b.accLow))).1 <;> simp [hp, hw]
  case inr.inr.inr => cases p.payloadDoneClears <;> simp [hp]

/-- The event of a command is the event of its parser's step, if it pushes a bit (46_operations.md R145). -/
theorem Block.perform_event_iff (i : Instr) (b : Block p) :
    ((b.perform i).2.event = .headerOnly ↔
        (b.pushedBit i).isSome ∧ b.pstate = .header ∧ (b.perform i).1.pstate = .search) ∧
      ((b.perform i).2.event = .full ↔
        (b.pushedBit i).isSome ∧ b.pstate = .payload ∧ (b.perform i).1.pstate = .search) := by
  obtain ⟨hnone, he, -⟩ | ⟨x, hx, hb, he⟩ := b.perform_cases i
  · simp [hnone, he]
  · rw [hx, hb, he]
    simpa using frameStep_event_iff (({ b with hold := false } : Block p).pushBit x)

/-- Settles O33: every command answers the response of the command on the block. -/
theorem eventsExactlyAtFrameCompletion : Obligations.EventsExactlyAtFrameCompletion := by
  intro i s t h
  rw [exec_eq_answer_perform] at h
  cases h
  exact ⟨_, rfl, s.block.perform_event_iff i⟩

end Sys2Proof.Machine
end

section
/-! SUPPORT. Two widths of the accumulator (92_eei_decisions.md D5): every stage takes blocks that agree below bit 40 to such blocks, and
answers alike. -/

namespace Sys2Proof.Machine

/-- Two results of one operation whose blocks agree but for the accumulator above bit 39, and whose answers are the same. -/
def SameResult {p q : Params} {α : Type} (r : Block p × α) (s : Block q × α) : Prop := SameButHighAcc r.1 s.1 ∧ r.2 = s.2

/-- Two operations that branch alike give the same result if they do in each branch. -/
theorem SameResult.ite {p q : Params} {α : Type} {P Q : Prop} [Decidable P] [Decidable Q]
    {r r' : Block p × α} {s s' : Block q × α} (h : P ↔ Q) (hr : SameResult r s) (hr' : SameResult r' s') :
    SameResult (if P then r else r') (if Q then s else s') := by
  by_cases hP : P
  · rw [if_pos hP, if_pos (h.1 hP)]
    exact hr
  · rw [if_neg hP, if_neg (mt h.2 hP)]
    exact hr'

section width
variable {p : Params} {w : Nat} {b : Block p} {c : Block { p with accW := w }}

theorem admissible_with_accW (hA : p.Admissible) (hw : 40 ≤ w) : Params.Admissible { p with accW := w } :=
  { hA with accW := hw }

theorem SameButHighAcc.with_hold (h : SameButHighAcc b c) (hold : Bool) :
    SameButHighAcc ({ b with hold } : Block p) ({ c with hold } : Block { p with accW := w }) :=
  { h with hold := rfl }

theorem SameButHighAcc.clearAcc (h : SameButHighAcc b c) : SameButHighAcc b.clearAcc c.clearAcc :=
  { h with acc := by simp, cnt := rfl }

theorem SameButHighAcc.fullReset (h : SameButHighAcc b c) : SameButHighAcc b.fullReset c.fullReset :=
  { h.clearAcc with hold := rfl, first := rfl, pstate := rfl }

/-- A push within any width of 40 or more, seen below bit 40 (42_bit_accumulator.md R90). -/
theorem Block.pushBit_acc_setWidth (hw : 40 ≤ p.accW) (b : Block p) (x : Bool) :
    (b.pushBit x).acc.setWidth 40 = BitVec.ofNat 40 (2 * (b.acc.setWidth 40).toNat + x.toNat) := by
  have hdvd : 2 ^ 40 ∣ 2 ^ p.accW := pow_dvd_pow 2 hw
  refine BitVec.eq_of_toNat_eq ?_
  rw [BitVec.toNat_setWidth, b.pushBit_acc_toNat_mod x, Nat.mod_mod_of_dvd _ hdvd, BitVec.toNat_ofNat, BitVec.toNat_setWidth]
  omega

theorem SameButHighAcc.pushBit (h : SameButHighAcc b c) (hp : 40 ≤ p.accW) (hw : 40 ≤ w) (x : Bool) :
    SameButHighAcc (b.pushBit x) (c.pushBit x) :=
  { h with
    acc := by rw [b.pushBit_acc_setWidth hp, c.pushBit_acc_setWidth hw, h.acc]
    cnt := by rw [b.pushBit_cnt_toNat_mod, c.pushBit_cnt_toNat_mod, h.cnt] }

/-- A capture takes bits below bit 40 (42_bit_accumulator.md R94). -/
theorem SameButHighAcc.accLow_eq (h : SameButHighAcc b c) : b.accLow = c.accLow := by
  have hlow {n : Nat} (v : BitVec n) : v.setWidth 32 = (v.setWidth 40).setWidth 32 :=
    (BitVec.setWidth_setWidth_of_le v (by decide)).symm
  rw [Block.accLow, Block.accLow, hlow, hlow c.acc, h.acc]

/-- A mask of 20 bits hides all that a width of 40 cuts off. -/
theorem and_mask_eq_setWidth_and_mask {n : Nat} (v : BitVec n) (m : BitVec 20) :
    v.toNat &&& m.toNat = (v.setWidth 40).toNat &&& m.toNat := by
  have hm : m.toNat < 2 ^ 40 := m.isLt.trans (by decide)
  calc v.toNat &&& m.toNat
      = (v.toNat &&& m.toNat) % 2 ^ 40 := (Nat.mod_eq_of_lt (Nat.and_le_right.trans_lt hm)).symm
    _ = v.toNat % 2 ^ 40 &&& m.toNat % 2 ^ 40 := Nat.and_mod_two_pow
    _ = (v.setWidth 40).toNat &&& m.toNat := by rw [Nat.mod_eq_of_lt hm, BitVec.toNat_setWidth]

/-- The preamble condition reads 20 bits of the accumulator, and the count (43_frame_parser.md R101). -/
theorem SameButHighAcc.preambleMatches_eq (h : SameButHighAcc b c) (hA : p.Admissible) (hw : 40 ≤ w) :
    preambleMatches b = preambleMatches c := by
  rw [Bool.eq_iff_iff, preambleMatches_iff_toNat hA, preambleMatches_iff_toNat (admissible_with_accW hA hw), h.cnt,
    and_mask_eq_setWidth_and_mask b.acc, and_mask_eq_setWidth_and_mask c.acc, h.acc]

theorem SameButHighAcc.searchStep_same (h : SameButHighAcc b c) (hA : p.Admissible) (hw : 40 ≤ w) :
    SameResult (searchStep b) (searchStep c) :=
  .ite (by rw [h.preambleMatches_eq hA hw]) ⟨{ h.clearAcc with pstate := rfl }, rfl⟩ ⟨h, rfl⟩

theorem SameButHighAcc.headerStep_same (h : SameButHighAcc b c) : SameResult (headerStep b) (headerStep c) := by
  refine .ite (by rw [h.cnt]) ?_ ⟨h, rfl⟩
  rw [h.accLow_eq]
  exact .ite Iff.rfl
    ⟨{ h.clearAcc with hdr := rfl, hdrValid := rfl, payValid := rfl, varw := rfl, pstate := rfl }, rfl⟩
    ⟨{ h.clearAcc with hdr := rfl, hdrValid := rfl, payValid := rfl, varw := rfl, pstate := rfl }, rfl⟩

/-- Both settings of `PAYLOAD_DONE_CLEARS` keep the agreement (43_frame_parser.md R105). -/
theorem SameButHighAcc.payloadStep_same (h : SameButHighAcc b c) : SameResult (payloadStep b) (payloadStep c) := by
  refine .ite (by rw [h.cnt, h.varw]) ⟨?_, rfl⟩ ⟨h, rfl⟩
  have hc : SameButHighAcc
      ({ b with pay := swap32 b.accLow, payValid := true, pstate := .search } : Block p)
      ({ c with pay := swap32 c.accLow, payValid := true, pstate := .search } : Block { p with accW := w }) :=
    { h with pay := congrArg swap32 h.accLow_eq, payValid := rfl, pstate := rfl }
  by_cases hclear : p.payloadDoneClears = true
  · simp only [if_pos hclear]
    exact hc.clearAcc
  · simp only [if_neg hclear]
    exact hc

theorem SameButHighAcc.frameStep_same (h : SameButHighAcc b c) (hA : p.Admissible) (hw : 40 ≤ w) :
    SameResult (frameStep b) (frameStep c) := by
  cases hp : b.pstate with
  | search =>
    rw [frameStep_of_search hp, frameStep_of_search (h.pstate ▸ hp)]
    exact h.searchStep_same hA hw
  | header =>
    rw [frameStep_of_header hp, frameStep_of_header (h.pstate ▸ hp)]
    exact h.headerStep_same
  | payload =>
    rw [frameStep_of_payload hp, frameStep_of_payload (h.pstate ▸ hp)]
    exact h.payloadStep_same

theorem SameButHighAcc.advance_same (h : SameButHighAcc b c) (sym : Symbol) : SameResult (advance sym b) (advance sym c) := by
  cases sym with
  | invalid => exact ⟨h.fullReset, rfl⟩
  | valid cls half =>
    exact .ite (by rw [h.hold]) ⟨{ h with hold := rfl, first := rfl }, rfl⟩
      (.ite (by rw [h.first]) ⟨h.with_hold false, rfl⟩ ⟨h.fullReset, rfl⟩)

/-- The two classifiers are one, the two assemblers push the same bit, and the two parsers step alike. -/
theorem SameButHighAcc.feed_same (h : SameButHighAcc b c) (hA : p.Admissible) (hw : 40 ≤ w) (lvl : Bool) (dur : Duration) :
    SameResult (b.feed lvl dur) (c.feed lvl dur) := by
  obtain ⟨hblock, hbit⟩ := h.advance_same (classify p (protocolLevel p lvl) (durOperand p dur))
  cases hx : (advance (classify p (protocolLevel p lvl) (durOperand p dur)) b).2 with
  | none =>
    rw [Block.feed_of_none hx, Block.feed_of_none (hbit.symm.trans hx)]
    exact ⟨hblock, rfl⟩
  | some x =>
    rw [Block.feed_of_some hx, Block.feed_of_some (hbit.symm.trans hx)]
    obtain ⟨hframe, hevent⟩ := ((h.with_hold false).pushBit hA.accW hw x).frameStep_same hA hw
    exact ⟨hframe, congrArg (respond .ok · 0) hevent⟩

/-- Of the register window only ACC_HI shows what lies above bit 39 (20_memory.md R42). -/
theorem SameButHighAcc.regRead_eq (h : SameButHighAcc b c) {a : SlotAddr} (ha : a ≠ 3) : regRead b a = regRead c a := by
  have hcnt : b.cnt = c.cnt := BitVec.eq_of_toNat_eq h.cnt
  unfold regRead
  split
  next => simp only [statusSlot, h.payValid, h.hdrValid, h.first, h.hold, h.pstate]
  next => exact congrArg (BitVec.setWidth 32) hcnt
  next => exact h.accLow_eq
  next h3 => exact absurd (BitVec.eq_of_toNat_eq h3) ha
  next => exact h.hdr
  next => exact h.pay
  next => rw [h.varw]
  next => simp only [fieldsSlot, h.hdr]
  next =>
    -- both configurations look the sensor type up in one table
    simp only [tempSlot, tempValid, h.payValid, h.hdr, h.pay]
    rfl
  next => simp only [checksumSlot, chkOk, h.payValid, h.hdr, h.pay]
  next => rfl

end width

/-- Settles O49: each command by its own lemma; RESET clears both accumulators, READ and ILLEGAL keep both blocks. -/
theorem accumulatorWidthShowsOnlyInAccHi : Obligations.AccumulatorWidthShowsOnlyInAccHi := by
  intro p w hA hw i b c h
  cases i with
  | feed lvl dur => exact (h.feed_same hA hw lvl dur).imp_right fun e _ => e
  | reset => exact ⟨h.fullReset, fun _ => rfl⟩
  | read a => exact ⟨h, fun ha => congrArg (respond .ok .none) (h.regRead_eq (ne_of_apply_ne Instr.read ha))⟩
  | illegal word => exact ⟨h, fun _ => rfl⟩

end Sys2Proof.Machine
end

section
/-! SUPPORT. How long a reading stays (70_reset_and_hazards.md R176): the bits that must still be pushed before a capture. -/

namespace Sys2Proof.Machine

variable {p : Params}

/-- A lower bound on the bits to push, the capturing one counted, before `HDR` or `PAY` is written: the rest of the preamble, one bit at
least, and a header; or the rest of a header. In PAYLOAD the bound is 0. -/
def Block.bitsToCapture (b : Block p) : Nat :=
  match b.pstate with
  | .search => max 1 (p.preambleLen - b.cnt.toNat) + p.hdrBits
  | .header => p.hdrBits - b.cnt.toNat
  | .payload => 0

section bitsToCapture
variable {b : Block p}

theorem Block.bitsToCapture_of_search (hp : b.pstate = .search) :
    b.bitsToCapture = max 1 (p.preambleLen - b.cnt.toNat) + p.hdrBits := by simp only [Block.bitsToCapture, hp]

theorem Block.bitsToCapture_of_header (hp : b.pstate = .header) : b.bitsToCapture = p.hdrBits - b.cnt.toNat := by
  simp only [Block.bitsToCapture, hp]

theorem Block.bitsToCapture_of_payload (hp : b.pstate = .payload) : b.bitsToCapture = 0 := by
  simp only [Block.bitsToCapture, hp]

theorem Block.pushBit_cnt_toNat_le (b : Block p) (x : Bool) : (b.pushBit x).cnt.toNat ≤ b.cnt.toNat + 1 :=
  (b.pushBit_cnt_toNat_mod x).trans_le (Nat.mod_le _ _)

/-- A full reset puts the whole preamble and a header before the next capture. -/
theorem Block.bitsToCapture_le_fullReset (b : Block p) : b.bitsToCapture ≤ b.fullReset.bitsToCapture := by
  rw [Block.bitsToCapture_of_search b.fullReset_pstate, Block.fullReset_cnt, BitVec.ofNat_eq_ofNat, BitVec.toNat_zero]
  cases hp : b.pstate with
  | search => rw [Block.bitsToCapture_of_search hp]; omega
  | header => rw [Block.bitsToCapture_of_header hp]; omega
  | payload => rw [Block.bitsToCapture_of_payload hp]; omega

/-- A push takes at most one bit off the bound. -/
theorem Block.bitsToCapture_le_pushBit (b : Block p) (x : Bool) : b.bitsToCapture ≤ 1 + (b.pushBit x).bitsToCapture := by
  have hcnt := b.pushBit_cnt_toNat_le x
  cases hp : b.pstate with
  | search => rw [Block.bitsToCapture_of_search hp, Block.bitsToCapture_of_search (b := b.pushBit x) hp]; omega
  | header => rw [Block.bitsToCapture_of_header hp, Block.bitsToCapture_of_header (b := b.pushBit x) hp]; omega
  | payload => rw [Block.bitsToCapture_of_payload hp]; omega

/-- The parser's step takes nothing more off: a preamble found has used up the bits before the header, and a capture comes where the
bound is 1 at most. -/
theorem Block.bitsToCapture_le_frameStep_pushBit (b : Block p) (x : Bool) :
    b.bitsToCapture ≤ 1 + (frameStep (b.pushBit x)).1.bitsToCapture := by
  have hcnt := b.pushBit_cnt_toNat_le x
  obtain e | ⟨hp, hm, e⟩ | ⟨hp, hc, e⟩ | ⟨hp, -, -⟩ := frameStep_cases (b.pushBit x)
  · rw [e]
    exact b.bitsToCapture_le_pushBit x
  · have hlen := preambleLen_le_of_preambleMatches hm
    rw [Block.bitsToCapture_of_search (b := b) hp, e, Block.bitsToCapture_of_header rfl, Block.clearAcc_cnt,
      BitVec.ofNat_eq_ofNat, BitVec.toNat_zero]
    omega
  · rw [Block.bitsToCapture_of_header (b := b) hp]
    omega
  · rw [Block.bitsToCapture_of_payload (b := b) hp]
    omega

/-- A command takes off the bound no more than the bits it pushes. -/
theorem Block.bitsToCapture_le_perform (i : Instr) (b : Block p) :
    b.bitsToCapture ≤ (if (b.pushedBit i).isSome then 1 else 0) + (b.perform i).1.bitsToCapture := by
  obtain ⟨hn, -, ⟨hold, first, e⟩ | e⟩ | ⟨x, hx, e, -⟩ := b.perform_cases i
  · rw [hn, e]
    exact (Nat.zero_add _).ge
  · rw [hn, e]
    exact b.bitsToCapture_le_fullReset.trans (Nat.zero_add _).ge
  · rw [hx, e]
    exact Block.bitsToCapture_le_frameStep_pushBit { b with hold := false } x

/-- Fewer bits than the bound capture nothing. -/
theorem Block.perform_keeps_reading {i : Instr} (h : (if (b.pushedBit i).isSome then 1 else 0) < b.bitsToCapture) :
    (b.perform i).1.hdr = b.hdr ∧ (b.perform i).1.pay = b.pay := by
  obtain ⟨hhdr, -, -, hpay, -⟩ | ⟨hp, hx, hc, -⟩ | ⟨hp, -⟩ := b.perform_reading_cases i
  · exact ⟨hhdr, hpay⟩
  · have hcnt : (b.cnt + 1).toNat ≤ b.cnt.toNat + 1 := b.pushBit_cnt_toNat_le true
    rw [if_pos hx, Block.bitsToCapture_of_header hp] at h
    omega
  · rw [Block.bitsToCapture_of_payload hp] at h
    omega

theorem Block.performAll_keeps_reading {is : List Instr} (h : b.pushCount is < b.bitsToCapture) :
    (b.performAll is).1.hdr = b.hdr ∧ (b.performAll is).1.pay = b.pay := by
  induction is generalizing b with
  | nil => exact ⟨rfl, rfl⟩
  | cons i is ih =>
    simp only [Block.pushCount] at h
    obtain ⟨hhdr, hpay⟩ := b.perform_keeps_reading (i := i) (by omega)
    have hrest := b.bitsToCapture_le_perform i
    obtain ⟨hhdr', hpay'⟩ := ih (b := (b.perform i).1) (by omega)
    exact ⟨hhdr'.trans hhdr, hpay'.trans hpay⟩

end bitsToCapture

/-- Settles O50: from SEARCH the bound is 33 at least, and 51 at a count of 0. -/
theorem readingStableForThirtyTwoBits : Obligations.ReadingStableForThirtyTwoBits := by
  intro p hA b is hp h
  refine Block.performAll_keeps_reading ?_
  rw [Block.bitsToCapture_of_search hp, hA.hdrBits, hA.preambleLen]
  obtain h | ⟨hc, h⟩ := h
  · omega
  · rw [hc, BitVec.ofNat_eq_ofNat, BitVec.toNat_zero]
    omega

end Sys2Proof.Machine
end

section
/-! SUPPORT. The step without an input and with power-on reset (60_exceptions.md R161, R157), that every step completes (R155), and the
step of one block of a system (R158). -/

namespace Sys2Proof.Machine

variable {s : State} {rest : List HostInput}

theorem step_of_nil (h : s.inbox = []) : step s = .next s.idle := by
  simp only [step, h]

theorem step_of_powerOn {w : Option CommandWord} (h : s.inbox = .powerOn w :: rest) :
    step s = .next (State.powerOn { s with inbox := rest }) := by
  simp only [step, h]

/-- Settles O2: the branch of `step` for power-on reset does not read the presented word. -/
theorem powerOnWinsOverPresentedCommand : Obligations.PowerOnWinsOverPresentedCommand := fun _ _ _ h => step_of_powerOn h

/-- Settles O5: the idle branch of `step`. -/
theorem stepWithoutInputKeepsBlock : Obligations.StepWithoutInputKeepsBlock := fun _ h => step_of_nil h

/-- Settles O6: the step at `params` that O56 speaks of always answers a next state. -/
theorem everyStepCompletes : Obligations.EveryStepCompletes := by
  intro s
  obtain ⟨t, -, h⟩ := step_agrees_with_stateAt_step s
  exact ⟨_, h⟩

theorem stepInstance_of_step {k : Nat} {sys : List State} {t : State} (hs : sys[k]? = some s) (ht : step s = .next t) :
    stepInstance k sys = .next (sys.set k t) := by
  simp only [stepInstance, hs, ht]

/-- Settles O48: the block's own step completes (O6), and its result is written at its own place alone. -/
theorem instancesDoNotInterfere : Obligations.InstancesDoNotInterfere := by
  intro k sys hk
  have hs : sys[k]? = some sys[k] := List.getElem?_eq_getElem hk
  obtain ⟨t, ht⟩ := everyStepCompletes sys[k]
  exact ⟨sys.set k t, sys[k], t, stepInstance_of_step hs ht, hs, ht, List.getElem?_set_self hk,
    fun j hj => List.getElem?_set_ne hj.symm⟩

end Sys2Proof.Machine
end

section
/-! SUPPORT. The words of vector V1 (95_test_vectors.md). -/

namespace Sys2Proof

/-- Settles O12, by evaluating the decoder on the nine words. -/
theorem sampleWordsDecode : Obligations.SampleWordsDecode := by
  unfold Obligations.SampleWordsDecode
  decide

end Sys2Proof
end
